-- ==== Sys2Proof/Word.lean ====
section
/-! DEFINITION. The words of the block: bytes, the 16-bit command word, the 16-bit CRC and status words, the
10-bit field mask and byte spans (00_scope.md R7, R8, R9). -/

namespace Sys2Proof

/-- A byte: 8 bits, unsigned, bit 0 least significant (R7). -/
abbrev Byte := BitVec 8

/-- A 16-bit value: the command word (R37), a CRC or its accumulator (R48), a status (R27). -/
abbrev Word := BitVec 16

/-- A span: a finite sequence of bytes in transmission order, element 0 first on the wire (R8, R25). The cap of
255 bytes is a check of WellFormed.lean. -/
abbrev Span := List Byte

/-- The 10-bit field mask `MASK = CMD[13:4]`, unsigned, all 1024 values legal (R39). -/
abbrev Mask := BitVec 10

end Sys2Proof
end

