-- ==== Sys2Proof/Syntax.lean ====
section
/-! DEFINITION. What the host can say to the block: the seven operations (30_encoding.md R40), the ten fields of a
frame (R41), the operands that travel beside a command word (10_state.md R17, R18) and the events on the block's
host interface (R33, R34, R90). -/

namespace Sys2Proof

/-- The operations, one per row of spec/opcode_table.json (R40). The two format-CM operations carry the mask of
their command word (R39). -/
inductive Instr where
  | crcCompute
  | crcCheck
  | encodeIblock (mask : Mask)
  | encodeWtxAck
  | classify
  | validate
  | decodeIblock (mask : Mask)
  deriving DecidableEq, Repr

/-- The ten fields of an information-block frame, in the fixed emission order (R41, R53). -/
inductive Field where
  | header
  | deviceId
  | cla
  | ins
  | p1
  | p2
  | length
  | payload
  | expectedLength
  | crc
  deriving DecidableEq, Repr

/-- The command descriptor (R18). -/
structure Descriptor where
  cla     : Byte
  ins     : Byte
  p1      : Byte
  p2      : Byte
  /-- `LC`, the payload length. -/
  lc      : Byte
  /-- `PAYLOAD`: absent, or a span of exactly `LC` bytes (the check is in WellFormed.lean). -/
  payload : Option Span
  /-- `LE`: absent, or the expected-response length. -/
  le      : Option Byte
  deriving DecidableEq, Repr

/-- The operand ports. Every port carries a value with every command, and an operation reads only those it
names (R17). -/
structure Operands where
  span       : Span
  descriptor : Descriptor
  did        : Byte
  fwt        : Byte
  deriving DecidableEq, Repr

/-- Nothing on the operand ports: the empty span, zero bytes, no payload and no expected length. DESIGN CHOICE of
the model, read by no operation a host issues: log entry 4. -/
def Operands.idle : Operands :=
  { span := []
    descriptor := { cla := 0, ins := 0, p1 := 0, p2 := 0, lc := 0, payload := none, le := none }
    did := 0
    fwt := 0 }

/-- One command as the host presents it: the 16-bit command word and the operands beside it (R17, R37). -/
structure Command where
  word     : Word
  operands : Operands
  deriving DecidableEq, Repr

/-- What the outside world can do to the block at one moment. -/
inductive HostEvent where
  /-- The reset input (R90, 92_eei_decisions.md D28). -/
  | reset
  /-- One command, presented alone (R33). -/
  | command (c : Command)
  /-- Two or more commands presented to one block at the same time (R34). -/
  | concurrent (first second : Command) (more : List Command)
  deriving DecidableEq, Repr

end Sys2Proof
end

