-- ==== Sys2Proof/Decode.lean ====
section
/-! DEFINITION. The decoder of the 16-bit command word (30_encoding.md R37 to R44), total and rejecting by name,
and after it the encoder, written from the table of R40. -/

namespace Sys2Proof

/-- Why a command word is illegal (R43). The block answers every reason with the same result ILLEGAL_COMMAND. -/
inductive IllegalWord where
  /-- R43 (a): `OP = 0x0` or `OP` in 0x8 to 0xF. -/
  | reservedOperation
  /-- R43 (b): a format-C0 operation with any of `CMD[15:4]` set. -/
  | reservedBitsC0
  /-- R43 (c): a format-CM operation with `CMD[15:14]` not zero. -/
  | reservedBitsCM
  deriving DecidableEq, Repr

/-- `OP = CMD[3:0]` (R37). -/
def opOf (cmd : Word) : BitVec 4 := cmd.extractLsb' 0 4

/-- `MASK = CMD[13:4]` (R39). -/
def maskOf (cmd : Word) : Mask := cmd.extractLsb' 4 10

/-- Format C0: `CMD[15:4]` must be zero (R38). -/
def decodeC0 (i : Instr) (cmd : Word) : Except IllegalWord Instr :=
  if cmd.extractLsb' 4 12 = 0 then .ok i else .error .reservedBitsC0

/-- Format CM: `CMD[15:14]` must be zero, and the mask is any value (R39). -/
def decodeCM (i : Mask → Instr) (cmd : Word) : Except IllegalWord Instr :=
  if cmd.extractLsb' 14 2 = 0 then .ok (i (maskOf cmd)) else .error .reservedBitsCM

/-- The decoder of R44, total on every 16-bit word. -/
def decode (cmd : Word) : Except IllegalWord Instr :=
  match (opOf cmd).toNat with
  | 0x1 => decodeC0 .crcCompute cmd
  | 0x2 => decodeC0 .crcCheck cmd
  | 0x3 => decodeCM .encodeIblock cmd
  | 0x4 => decodeC0 .encodeWtxAck cmd
  | 0x5 => decodeC0 .classify cmd
  | 0x6 => decodeC0 .validate cmd
  | 0x7 => decodeCM .decodeIblock cmd
  | _ => .error .reservedOperation

/-- A format-CM word: `(MASK << 4) OR OP` on 16 bits (R39, R45). -/
def encodeCM (op : Word) (mask : Mask) : Word :=
  (mask.setWidth 16 <<< 4) ||| op

/-- The command word of an operation, from the rows of R40. -/
def encode (i : Instr) : Word :=
  match i with
  | .crcCompute => 0x0001
  | .crcCheck => 0x0002
  | .encodeIblock mask => encodeCM 0x0003 mask
  | .encodeWtxAck => 0x0004
  | .classify => 0x0005
  | .validate => 0x0006
  | .decodeIblock mask => encodeCM 0x0007 mask

/-- The command word laid out from a table word of `nbits` bits: a command is one 16-bit word (R37), bit 0 its
least significant bit, and every bit above `nbits` is zero. -/
def commandWord (nbits w : Nat) : Word :=
  BitVec.ofNat 16 (w % 2 ^ nbits)

/-- The instruction the decoder reads from a word numbered as spec/opcode_table.json numbers it, none where the
word is illegal. -/
def decodeTableWord (nbits w : Nat) : Option Instr :=
  match decode (commandWord nbits w) with
  | .ok i => some i
  | .error _ => none

end Sys2Proof
end

