-- ==== Sys2Proof/Config.lean ====
section
/-! DEFINITION. The block's fixed constants (00_scope.md R5) and its one model parameter (R6). -/

namespace Sys2Proof

/-- The initial value of the CRC accumulator (R5, R48). UNVERIFIED literal of the source: log entry 1. -/
abbrev crcInit : Word := 0x6363

/-- The most payload bytes a frame carries (R5, R59). UNVERIFIED literal: log entry 1. -/
abbrev maxPayload : Nat := 246

/-- The most bytes of a frame, emitted or received (R5, R31). UNVERIFIED literal: log entry 1. -/
abbrev maxFrame : Nat := 255

/-- The application status that means success (R5, R77). UNVERIFIED literal: log entry 1. -/
abbrev swSuccess : Word := 0x9000

/-- The header byte of the wait-time-extension acknowledgement (R5, R63). UNVERIFIED literal: log entry 1. -/
abbrev wtxAckHdr : Byte := 0xF2

/-- The length of the response validator's second window (R5, R75). UNVERIFIED literal: log entry 1. -/
abbrev narrowWindow : Nat := 5

/-- What one implementation of the block fixes (R6). Plain data, held in State, written by no step: a claim over
every state is a claim for both values of the parameter (log entry 2). -/
structure Config where
  /-- `P_HDR_DID_BIT`: whether an information-block header also carries 0x08 when the device-id field is selected
  (R6, R54). -/
  hdrDidBit : Bool
  deriving DecidableEq, Repr

/-- The default of R6: `P_HDR_DID_BIT = 0`. -/
def Config.default : Config := { hdrDidBit := false }

end Sys2Proof
end

