-- ==== Sys2Proof/Machine/State.lean ====
section
/-! DEFINITION. The state of one block (10_state.md): the sequence register `SEQ`, the implementation parameter,
and the model's own picture of the host interface (the events the host is yet to issue, the operands of the command
now at the ports, the result record just returned). -/

namespace Sys2Proof.Machine

/-- The result codes `RES` the block produces (R20); 0x6 to 0xF are never produced and are not here. -/
inductive ResCode where
  | ok
  | invalidLength
  | crcMismatch
  | chipStatus
  | illegalCommand
  | frameFormat
  deriving DecidableEq, Repr

/-- `KIND` of a received frame (R19, R64, R65). -/
inductive BlockKind where
  | information
  | reserved
  | receiveReady
  | supervisory
  deriving DecidableEq, Repr

/-- `SUB` of a supervisory frame (R19, R67). -/
inductive SubType where
  | deselect
  | other
  | wtx
  deriving DecidableEq, Repr

/-- `WINDOW` of a validated response (R19, R74, R75). -/
inductive Window where
  | full
  | narrow
  deriving DecidableEq, Repr

/-- The result record (R19). `RES` is always there; any other field is there only where the operation's rule names
it for that outcome, and is absent (`none`) otherwise. -/
structure ResultRecord where
  res      : ResCode
  crc      : Option Word := none
  frame    : Option Span := none
  hdr      : Option Byte := none
  kind     : Option BlockKind := none
  blk      : Option (BitVec 1) := none
  sub      : Option SubType := none
  fwt      : Option Byte := none
  crc4Ok   : Option Bool := none
  sw       : Option Word := none
  window   : Option Window := none
  data     : Option Span := none
  dHdr     : Option Byte := none
  dDid     : Option Byte := none
  dCla     : Option Byte := none
  dIns     : Option Byte := none
  dP1      : Option Byte := none
  dP2      : Option Byte := none
  dLc      : Option Byte := none
  dPayload : Option Span := none
  dLe      : Option Byte := none
  dCrc     : Option Word := none
  deriving DecidableEq, Repr

/-- The block has no trap and no fault: every error is a result code of the command that caused it (R84, 92 D25).
So no step ever answers a fault, and this type has no constructor. -/
inductive Fault where
  deriving DecidableEq, Repr

/-- Why a step is refused at the model boundary, with no step taken and no result (R82). -/
inductive Refusal where
  /-- Raised by exec's arm of an instruction that has no meaning yet; no arm uses it. Safe. -/
  | notModelled (mnemonic : String)
  /-- Raised by an operation that names `SPAN` when it is longer than 255 bytes (R17). Safe: the spec refuses it. -/
  | spanTooLong
  /-- Raised by ENCODE_IBLOCK when the present `PAYLOAD` has a length other than `LC` (R18). Safe: the spec refuses
  it. -/
  | payloadLengthMismatch
  /-- Raised by the step when two or more commands are presented at once (R34). Safe: the spec refuses it. -/
  | concurrentCommands
  deriving DecidableEq, Repr

/-- The state of one block. -/
structure State where
  /-- `SEQ`: the sequence bit of the last information-block header the block emitted (R14). -/
  seq      : BitVec 1
  /-- The implementation parameter of R6; no step writes it. -/
  config   : Config
  /-- The host events still to come, oldest first (R33); the model's own, log entry 3. -/
  pending  : List HostEvent
  /-- The operands of the command now at the ports; the model's own, log entry 4. -/
  operands : Operands
  /-- The result record the last step returned to the host, none if it returned none; the model's own, log
  entry 5. -/
  result   : Option ResultRecord
  deriving DecidableEq, Repr

/-- The block right after reset: `SEQ = 1` (R14, R90, R91), the default parameter (R6), and nothing at the host
interface. -/
def State.reset : State :=
  { seq := 1
    config := Config.default
    pending := []
    operands := Operands.idle
    result := none }

end Sys2Proof.Machine
end

