-- ==== Sys2Proof/Machine/Ops.lean ====
section
/-! DEFINITION. The operations the meanings share: the accessors of `SEQ`, returning a result or an error, the host
port, byte order, and the CRC function (20_memory.md, 40_crc.md, 60_exceptions.md, 70_reset_and_hazards.md). -/

namespace Sys2Proof.Machine

/-- The three outcomes of a step, at this machine's types. -/
abbrev Answer := Host.Outcome State Fault Refusal

/-- `SEQ`, read (R14). -/
def readSeq (s : State) : BitVec 1 := s.seq

/-- `SEQ <- v` (R10, R14). -/
def writeSeq (v : BitVec 1) (s : State) : State := { s with seq := v }

/-- The record goes to the result port (R10, R19). -/
def setResult (r : ResultRecord) (s : State) : State := { s with result := some r }

/-- `result <- r; return`: the command ends with the one record it returns (R10, R19). -/
def returnResult (r : ResultRecord) (s : State) : Answer := .next (setResult r s)

/-- A record that carries its code and no other field. -/
def errorRecord (code : ResCode) : ResultRecord := { res := code }

/-- An error result, the block's only form of exception (R84): the host receives the code, nothing is saved, no
mode changes, no handler is entered, and `SEQ` stays. There is no return from it (R85): the next command runs under
its own rules. -/
def raiseError (code : ResCode) (s : State) : Answer := returnResult (errorRecord code) s

/-- `raise ILLEGAL_COMMAND` (R10, R43): no other field and no state change. -/
def raiseIllegalCommand (s : State) : Answer := raiseError .illegalCommand s

/-- The ports take what the host presents: its operands come in, and the last command's result is gone (R16, R19:
nothing of it persists in the block). -/
def takePorts (o : Operands) (rest : List HostEvent) (s : State) : State :=
  { s with operands := o, result := none, pending := rest }

/-- The block's reset (R90): `SEQ <- 1`, and no other effect. -/
def applyReset (s : State) : State := writeSeq 1 s

/-- A command word put at the head of what the host presents, with the operands now at the ports. -/
def presentWord (w : Word) (s : State) : State :=
  { s with pending := .command { word := w, operands := s.operands } :: s.pending }

/-- The low byte of a 16-bit value, `v[7:0]`. -/
def lowByte (v : Word) : Byte := v.extractLsb' 0 8

/-- The high byte of a 16-bit value, `v[15:8]`. -/
def highByte (v : Word) : Byte := v.extractLsb' 8 8

/-- A CRC as it stands in a frame: low byte, then high byte (R26). -/
def crcBytes (c : Word) : Span := [lowByte c, highByte c]

/-- A 16-bit status from two consecutive bytes, the earlier one high (R27). -/
def statusWord (earlier later : Byte) : Word :=
  (earlier.setWidth 16 <<< 8) ||| later.setWidth 16

/-- A 16-bit CRC read from two consecutive bytes of a frame, the earlier one low (R26, R72). -/
def crcWord (earlier later : Byte) : Word :=
  earlier.setWidth 16 ||| (later.setWidth 16 <<< 8)

/-- Sub-span `s[a : b]`: the elements `a` to `b - 1`, empty when `b ≤ a` (R8). -/
def subSpan (s : Span) (a b : Nat) : Span := (s.take b).drop a

/-- `zeros(n)` (R8). -/
def zeros (n : Nat) : Span := List.replicate n 0

/-- The four-step per-byte update of the CRC accumulator (R47). -/
def crcStep (crc : Word) (ch : Byte) : Word :=
  let t := ch ^^^ lowByte crc
  let t := t ^^^ (t <<< 4)
  (crc >>> 8) ^^^ (t.setWidth 16 <<< 8) ^^^ (t.setWidth 16 <<< 3) ^^^ (t.setWidth 16 >>> 4)

/-- The accumulator after a span, from any start. -/
def crcFrom (acc : Word) (s : Span) : Word := s.foldl crcStep acc

/-- `CRC16(s)`: from the initial value, each byte folded in, the final accumulator returned (R48). -/
def crc16 (s : Span) : Word := crcFrom crcInit s

/-- One shift of the bit-serial form: with 0x8408, the reversed polynomial, where the low bit is set (R49). -/
def crcShift (acc : Word) : Word :=
  if acc.getLsbD 0 then (acc >>> 1) ^^^ 0x8408 else acc >>> 1

/-- `n` shifts of the bit-serial form. -/
def crcShifts : Nat → Word → Word
  | 0, acc => acc
  | n + 1, acc => crcShifts n (crcShift acc)

/-- The per-byte update of the bit-serial form (R49). -/
def crcStepSerial (acc : Word) (b : Byte) : Word := crcShifts 8 (acc ^^^ b.setWidth 16)

/-- `CRC16` in the bit-serial form of R49; no meaning calls it. -/
def crc16Serial (s : Span) : Word := s.foldl crcStepSerial crcInit

end Sys2Proof.Machine
end

