-- ==== Sys2Proof/Machine/Flags.lean ====
section
/-! DEFINITION. What plays the part of flags here (10_state.md R21): the residue test, the fields read off a
received header, the status mapping, and the bits of each code of the result record (R19, R20). -/

namespace Sys2Proof.Machine

/-- A zero CRC residue indicates integrity (R50, R52). -/
def residueZero (s : Span) : Bool := decide (crc16 s = 0)

/-- `KIND = h[7:6]` (R64, R65). -/
def blockKind (h : Byte) : BlockKind :=
  match (h.extractLsb' 6 2).toNat with
  | 0 => .information
  | 1 => .reserved
  | 2 => .receiveReady
  | _ => .supervisory

/-- `BLK = h[0]` for kinds I and R, absent for the others (R66). -/
def blockNumber (h : Byte) : Option (BitVec 1) :=
  match blockKind h with
  | .information => some (h.extractLsb' 0 1)
  | .receiveReady => some (h.extractLsb' 0 1)
  | .reserved => none
  | .supervisory => none

/-- `SUB` from `h[5:4]` for kind S, absent for the others (R67). -/
def subType (h : Byte) : Option SubType :=
  match blockKind h with
  | .supervisory =>
    match (h.extractLsb' 4 2).toNat with
    | 3 => some .wtx
    | 0 => some .deselect
    | _ => some .other
  | .information => none
  | .reserved => none
  | .receiveReady => none

/-- `RES` for a status that a window passed: 0x9000 is success, any other is passed through (R77). -/
def statusResult (sw : Word) : ResCode := if sw = swSuccess then .ok else .chipStatus

/-- The 4-bit code of `RES` (R20). -/
def resBits (c : ResCode) : BitVec 4 :=
  match c with
  | .ok => 0x0
  | .invalidLength => 0x1
  | .crcMismatch => 0x2
  | .chipStatus => 0x3
  | .illegalCommand => 0x4
  | .frameFormat => 0x5

/-- The 2-bit code of `KIND` (R19). -/
def kindBits (k : BlockKind) : BitVec 2 :=
  match k with
  | .information => 0b00
  | .reserved => 0b01
  | .receiveReady => 0b10
  | .supervisory => 0b11

/-- The 2-bit code of `SUB` (R19). -/
def subBits (t : SubType) : BitVec 2 :=
  match t with
  | .deselect => 0b00
  | .other => 0b01
  | .wtx => 0b11

/-- The 1-bit code of `WINDOW` (R19). -/
def windowBits (w : Window) : BitVec 1 :=
  match w with
  | .full => 0
  | .narrow => 1

end Sys2Proof.Machine
end

