-- ==== Sys2Proof/WellFormed.lean ====
section
/-! DEFINITION. What the block's boundary admits (60_exceptions.md R82). An instruction has no ill-formed value:
all 1024 masks are legal (R39) and the type holds exactly those. The checks are on the operands an operation names
and on how the host presents commands. -/

namespace Sys2Proof

/-- A span of at most 255 bytes is admitted, a longer one is not (R17). -/
def spanAdmitted (span : Span) : Bool :=
  decide (span.length ≤ maxFrame)

/-- A descriptor is admitted when its payload, if present, has exactly `LC` bytes (R18). -/
def descriptorAdmitted (d : Descriptor) : Bool :=
  match d.payload with
  | none => true
  | some p => decide (p.length = d.lc.toNat)

/-- The operands an operation names are admitted; those it does not name are ignored (R17). -/
def operandsAdmitted (i : Instr) (o : Operands) : Bool :=
  match i with
  | .crcCompute => spanAdmitted o.span
  | .crcCheck => spanAdmitted o.span
  | .encodeIblock _ => descriptorAdmitted o.descriptor
  | .encodeWtxAck => true
  | .classify => spanAdmitted o.span
  | .validate => spanAdmitted o.span
  | .decodeIblock _ => spanAdmitted o.span

end Sys2Proof
end

