-- ==== Sys2Proof/Machine/Operands.lean ====
section
/-! DEFINITION. The operand forms: the span and descriptor ports with the boundary checks of R82, the mask's field
selection (R41), the frame length a mask describes (R42), and the two directions of one frame field, emitting it and
splitting it off. -/

namespace Sys2Proof.Machine

/-- `SPAN`, for an operation that names it: not admitted above 255 bytes (R17, R82). -/
def withSpan (s : State) (k : Span → Answer) : Answer :=
  if spanAdmitted s.operands.span then k s.operands.span else .refused .spanTooLong

/-- The command descriptor: not admitted when its present payload has a length other than `LC` (R18, R82). -/
def withDescriptor (s : State) (k : Descriptor → Answer) : Answer :=
  if descriptorAdmitted s.operands.descriptor then k s.operands.descriptor
  else .refused .payloadLengthMismatch

/-- The bit of `MASK` that selects a field: bit i selects the i-th field of the emission order (R41). -/
def fieldBit (f : Field) : Nat :=
  match f with
  | .header => 0
  | .deviceId => 1
  | .cla => 2
  | .ins => 3
  | .p1 => 4
  | .p2 => 5
  | .length => 6
  | .payload => 7
  | .expectedLength => 8
  | .crc => 9

/-- Whether a mask selects a field (R41). -/
def selects (mask : Mask) (f : Field) : Bool := mask.getLsbD (fieldBit f)

/-- The bytes a field takes in a frame when selected, for payload length `n` (R41). -/
def fieldBytes (f : Field) (n : Nat) : Nat :=
  match f with
  | .payload => n
  | .crc => 2
  | _ => 1

/-- What one field adds to the length of a frame. -/
def fieldLen (mask : Mask) (f : Field) (n : Nat) : Nat :=
  if selects mask f then fieldBytes f n else 0

/-- `FLEN(MASK, n)`: the length of the frame a mask describes for payload length `n`, on naturals (R42). -/
def flen (mask : Mask) (n : Nat) : Nat :=
  fieldLen mask .header n + fieldLen mask .deviceId n + fieldLen mask .cla n + fieldLen mask .ins n
    + fieldLen mask .p1 n + fieldLen mask .p2 n + fieldLen mask .length n + fieldLen mask .payload n
    + fieldLen mask .expectedLength n + fieldLen mask .crc n

/-- A field's bytes, emitted only when the mask selects it (R53). -/
def emit (mask : Mask) (f : Field) (bytes : Span) : Span :=
  if selects mask f then bytes else []

/-- A one-byte field split off the front of a span: its value when the mask selects it, and the bytes after it
(R72). -/
def splitByte (mask : Mask) (f : Field) (rest : Span) : Option Byte × Span :=
  if selects mask f then (rest.head?, rest.tail) else (none, rest)

/-- The payload field split off the front of a span, `n` bytes when selected (R72). -/
def splitPayload (mask : Mask) (n : Nat) (rest : Span) : Option Span × Span :=
  if selects mask .payload then (some (rest.take n), rest.drop n) else (none, rest)

/-- The CRC field, the next two bytes, low byte first, when selected (R26, R72). -/
def splitCrc (mask : Mask) (rest : Span) : Option Word :=
  if selects mask .crc then
    match rest with
    | lo :: hi :: _ => some (crcWord lo hi)
    | _ => none
  else none

end Sys2Proof.Machine
end

