-- ==== Sys2Proof/Machine/Classifier.lean ====
section
/-! DEFINITION. The Block Classifier and header parser (42_block_classifier.md R64 to R72). -/

namespace Sys2Proof.Machine

/-- `FWT = SPAN[1]` of a wait-time-extension request of two or more bytes, absent otherwise (R68). -/
def fwtByte (h : Byte) (span : Span) : Option Byte :=
  if subType h = some .wtx then span[1]? else none

/-- `CRC4_OK`: the residue test of the first four bytes, absent for a shorter frame (R69). -/
def crc4Ok (span : Span) : Option Bool :=
  if 4 ≤ span.length then some (residueZero (subSpan span 0 4)) else none

/-- The record of CLASSIFY (R70). -/
def classifyRecord (span : Span) : ResultRecord :=
  match span with
  | [] => errorRecord .frameFormat
  | h :: _ =>
    { res := .ok
      hdr := some h
      kind := some (blockKind h)
      blk := blockNumber h
      sub := subType h
      fwt := fwtByte h span
      crc4Ok := crc4Ok span }

/-- CLASSIFY: a received frame's kind, from its header (R70). -/
def execClassify (s : State) : Answer :=
  withSpan s fun span => returnResult (classifyRecord span) s

/-- The payload length of a span split under a mask: `D_LC` when both are selected, what the other fields leave when
only the payload is, zero when it is not (R71). -/
def decodedPayloadLen (mask : Mask) (dLc : Option Byte) (len : Nat) : Nat :=
  if selects mask .payload then
    match dLc with
    | some lc => lc.toNat
    | none => len - flen mask 0
  else 0

/-- `CRC_MISMATCH` when the CRC is selected and the residue of the whole span is not zero (R72). -/
def decodeResult (mask : Mask) (span : Span) : ResCode :=
  if selects mask .crc && !residueZero span then .crcMismatch else .ok

/-- The fields of a span under a mask, taken in emission order (R72). -/
def decodeRecord (mask : Mask) (span : Span) : ResultRecord :=
  if span.length < flen mask 0 then errorRecord .frameFormat
  else
    let (dHdr, rest) := splitByte mask .header span
    let (dDid, rest) := splitByte mask .deviceId rest
    let (dCla, rest) := splitByte mask .cla rest
    let (dIns, rest) := splitByte mask .ins rest
    let (dP1, rest) := splitByte mask .p1 rest
    let (dP2, rest) := splitByte mask .p2 rest
    let (dLc, rest) := splitByte mask .length rest
    let n := decodedPayloadLen mask dLc span.length
    if maxPayload < n ∨ flen mask 0 + n ≠ span.length then errorRecord .frameFormat
    else
      let (dPayload, rest) := splitPayload mask n rest
      let (dLe, rest) := splitByte mask .expectedLength rest
      { res := decodeResult mask span
        dHdr, dDid, dCla, dIns, dP1, dP2, dLc, dPayload, dLe
        dCrc := splitCrc mask rest }

/-- DECODE_IBLOCK: a frame split into the fields its mask selects (R72); `SEQ` takes no part. -/
def execDecodeIblock (mask : Mask) (s : State) : Answer :=
  withSpan s fun span => returnResult (decodeRecord mask span) s

end Sys2Proof.Machine
end

