-- ==== Sys2Proof/Machine/Codec.lean ====
section
/-! DEFINITION. The Frame Codec's operations (41_frame_codec.md R53 to R63). -/

namespace Sys2Proof.Machine

/-- `HEADER(s, MASK)`: 0x02, the sequence bit in bit 0, and 0x08 where the parameter asks for it and the device-id
field is selected (R54). -/
def headerByte (cfg : Config) (mask : Mask) (seq : BitVec 1) : Byte :=
  0x02 ||| seq.setWidth 8 ||| (if cfg.hdrDidBit && selects mask .deviceId then 0x08 else 0x00)

/-- The payload field: the payload if present, else `zeros(LC)` (R55). -/
def payloadField (d : Descriptor) : Span :=
  match d.payload with
  | some p => p
  | none => zeros d.lc.toNat

/-- The expected-length field: `LE` if present, else 0x00 (R56). -/
def expectedLengthField (d : Descriptor) : Byte :=
  match d.le with
  | some le => le
  | none => 0x00

/-- The bytes of a frame before its CRC: the selected fields in the fixed order (R53). -/
def frameBody (cfg : Config) (mask : Mask) (seq : BitVec 1) (d : Descriptor) (did : Byte) : Span :=
  emit mask .header [headerByte cfg mask seq]
    ++ (emit mask .deviceId [did]
    ++ (emit mask .cla [d.cla]
    ++ (emit mask .ins [d.ins]
    ++ (emit mask .p1 [d.p1]
    ++ (emit mask .p2 [d.p2]
    ++ (emit mask .length [d.lc]
    ++ (emit mask .payload (payloadField d)
    ++ emit mask .expectedLength [expectedLengthField d])))))))

/-- The frame: the body, then when selected the CRC over every byte before it, low byte first (R57). -/
def encodeFrame (cfg : Config) (mask : Mask) (seq : BitVec 1) (d : Descriptor) (did : Byte) : Span :=
  frameBody cfg mask seq d did ++ emit mask .crc (crcBytes (crc16 (frameBody cfg mask seq d did)))

/-- The sequence bit after a successful encode: toggled when the header is selected (R58). -/
def nextSeq (mask : Mask) (seq : BitVec 1) : BitVec 1 :=
  if selects mask .header then ~~~seq else seq

/-- ENCODE_IBLOCK: an information-block frame from a mask, a descriptor and a device-id, with the two length errors
checked in order before anything is emitted (R59, R60). -/
def execEncodeIblock (mask : Mask) (s : State) : Answer :=
  withDescriptor s fun d =>
    if maxPayload < d.lc.toNat then raiseError .invalidLength s
    else if maxFrame < flen mask d.lc.toNat then raiseError .invalidLength s
    else
      returnResult
        { res := .ok
          frame := some (encodeFrame s.config mask (nextSeq mask (readSeq s)) d s.operands.did) }
        (writeSeq (nextSeq mask (readSeq s)) s)

/-- The acknowledgement of a wait-time-extension request: header, FWT byte, CRC, four bytes (R63). -/
def wtxAckFrame (fwt : Byte) : Span := [wtxAckHdr, fwt] ++ crcBytes (crc16 [wtxAckHdr, fwt])

/-- ENCODE_WTX_ACK (R63): `SEQ` and the device-id take no part. -/
def execEncodeWtxAck (s : State) : Answer :=
  returnResult { res := .ok, frame := some (wtxAckFrame s.operands.fwt) } s

end Sys2Proof.Machine
end

