-- ==== Sys2Proof/Machine/Crc.lean ====
section
/-! DEFINITION. The CRC Engine's operations (40_crc.md R51, R52). -/

namespace Sys2Proof.Machine

/-- The record of CRC_COMPUTE (R51). -/
def crcComputeRecord (span : Span) : ResultRecord := { res := .ok, crc := some (crc16 span) }

/-- The record of CRC_CHECK: the residue, with OK when it is zero (R52). -/
def crcCheckRecord (span : Span) : ResultRecord :=
  { res := if residueZero span then .ok else .crcMismatch, crc := some (crc16 span) }

/-- CRC_COMPUTE: the CRC of a span (R51). -/
def execCrcCompute (s : State) : Answer :=
  withSpan s fun span => returnResult (crcComputeRecord span) s

/-- CRC_CHECK: the residue of a span that ends in a CRC (R52). -/
def execCrcCheck (s : State) : Answer :=
  withSpan s fun span => returnResult (crcCheckRecord span) s

end Sys2Proof.Machine
end

