-- ==== Sys2Proof/Machine/Validator.lean ====
section
/-! DEFINITION. The Response Validator (43_response_validator.md R74 to R79). -/

namespace Sys2Proof.Machine

/-- A validated response: its status, the window that passed, and its data, with the status mapped to `RES` (R77). -/
def statusRecord (sw : Word) (w : Window) (data : Span) : ResultRecord :=
  { res := statusResult sw, sw := some sw, window := some w, data := some data }

/-- The status at two consecutive bytes `i`, `i + 1` of a span (R27). The guard of the window that calls it makes both
indexes fall inside the span (R9), so the byte that stands in for an index outside is never taken. -/
def statusAt (span : Span) (i : Nat) : Word := statusWord (span.getD i 0) (span.getD (i + 1) 0)

/-- The full window passes: four or more bytes with a zero residue (R74). -/
def fullWindowPasses (span : Span) : Bool := decide (4 ≤ span.length) && residueZero span

/-- The narrow window passes: the first five bytes exist and have a zero residue (R75). -/
def narrowWindowPasses (span : Span) : Bool :=
  decide (narrowWindow ≤ span.length) && residueZero (subSpan span 0 narrowWindow)

/-- The record of VALIDATE: the full window, then the narrow window, then a link error (R76, R79). -/
def validateRecord (span : Span) : ResultRecord :=
  if fullWindowPasses span then
    statusRecord (statusAt span (span.length - 4)) .full (subSpan span 1 (span.length - 4))
  else if narrowWindowPasses span then statusRecord (statusAt span 1) .narrow []
  else errorRecord .crcMismatch

/-- VALIDATE: a received response's integrity and its application status (R79). -/
def execValidate (s : State) : Answer :=
  withSpan s fun span => returnResult (validateRecord span) s

end Sys2Proof.Machine
end

