-- ==== Sys2Proof/Machine/Dispatch.lean ====
section
/-! DEFINITION. One arm per operation, each one call of its meaning. -/

namespace Sys2Proof.Machine

def exec (i : Instr) (s : State) : Host.Outcome State Fault Refusal :=
  match i with
  | .crcCompute => Sys2Proof.Machine.execCrcCompute s
  | .crcCheck => Sys2Proof.Machine.execCrcCheck s
  | .encodeIblock mask => Sys2Proof.Machine.execEncodeIblock mask s
  | .encodeWtxAck => Sys2Proof.Machine.execEncodeWtxAck s
  | .classify => Sys2Proof.Machine.execClassify s
  | .validate => Sys2Proof.Machine.execValidate s
  | .decodeIblock mask => Sys2Proof.Machine.execDecodeIblock mask s

end Sys2Proof.Machine
end

