-- ==== Sys2Proof/Machine/Issue.lean ====
section
/-! DEFINITION. One host event taken by the block (20_memory.md R33, R34; 60_exceptions.md R82, R83;
70_reset_and_hazards.md R90). -/

namespace Sys2Proof.Machine

/-- A command whose operands are at the ports: its word is decoded first, before any operand is read, and an illegal
word answers ILLEGAL_COMMAND whatever the operands (R43, R83). -/
def issueWord (w : Word) (s : State) : Answer :=
  match decode w with
  | .ok i => exec i s
  | .error _ => raiseIllegalCommand s

/-- No event to come: the block keeps `SEQ` (R89) and returns nothing. DESIGN CHOICE: log entry 3. -/
def idleStep (s : State) : Answer := .next (takePorts Operands.idle [] s)

/-- The reset input: `SEQ <- 1`, and no result (R90). -/
def resetStep (rest : List HostEvent) (s : State) : Answer :=
  .next (applyReset (takePorts Operands.idle rest s))

/-- One command: taken at the ports and issued (R11, R33). -/
def commandStep (c : Command) (rest : List HostEvent) (s : State) : Answer :=
  issueWord c.word (takePorts c.operands rest s)

/-- One event of the host. Commands presented at once are not admitted: no step, no result (R34, R82). -/
def takeEvent (e : HostEvent) (rest : List HostEvent) (s : State) : Answer :=
  match e with
  | .reset => resetStep rest s
  | .command c => commandStep c rest s
  | .concurrent _ _ _ => .refused .concurrentCommands

end Sys2Proof.Machine
end

