-- ==== Sys2Proof/Machine/Step.lean ====
section
/-! DEFINITION. One step of the block, and a table word placed as the next command. -/

namespace Sys2Proof.Machine

/-- One step: the oldest host event, if there is one (R33). -/
def step (s : State) : Host.Outcome State Fault Refusal :=
  match s.pending with
  | [] => idleStep s
  | e :: rest => takeEvent e rest s

/-- The state in which the very next step runs the command whose word the table numbers as `w`, with the operands
now at the ports (log entry 6). -/
def State.withFetchWord (s : State) (nbits w : Nat) : State := presentWord (commandWord nbits w) s

end Sys2Proof.Machine
end

