-- ==== Sys2Proof/Machine/Assembler.lean ====
section
/-! DEFINITION. The assembler syntax of a command (30_encoding.md R45, R46): a mnemonic and named operands, and the
command they assemble to. The model starts after the line is cut into names and values; how the characters of a value
are read is not part of it (log entry 8). -/

namespace Sys2Proof.Machine

/-- The mnemonics; there are no pseudo-instructions (R46). -/
inductive Mnemonic where
  | crcCompute
  | crcCheck
  | encodeIblock
  | encodeWtxAck
  | classify
  | validate
  | decodeIblock
  deriving DecidableEq, Repr

/-- A named operand `name=value` (R45). `payload=-` and `le=-` are the absent forms. -/
inductive AsmOperand where
  | mask (value : Mask)
  | span (value : Span)
  | cla (value : Byte)
  | ins (value : Byte)
  | p1 (value : Byte)
  | p2 (value : Byte)
  | lc (value : Byte)
  | le (value : Option Byte)
  | payload (value : Option Span)
  | did (value : Byte)
  | fwt (value : Byte)
  deriving DecidableEq, Repr

/-- A command as written: `MNEMONIC name=value, name=value` (R45). -/
structure AsmLine where
  mnemonic : Mnemonic
  operands : List AsmOperand
  deriving DecidableEq, Repr

/-- A mnemonic as it is spelled (R40). -/
def mnemonicText (m : Mnemonic) : String :=
  match m with
  | .crcCompute => "CRC_COMPUTE"
  | .crcCheck => "CRC_CHECK"
  | .encodeIblock => "ENCODE_IBLOCK"
  | .encodeWtxAck => "ENCODE_WTX_ACK"
  | .classify => "CLASSIFY"
  | .validate => "VALIDATE"
  | .decodeIblock => "DECODE_IBLOCK"

/-- An operand's name as it is spelled (R45). -/
def operandName (a : AsmOperand) : String :=
  match a with
  | .mask _ => "mask"
  | .span _ => "span"
  | .cla _ => "cla"
  | .ins _ => "ins"
  | .p1 _ => "p1"
  | .p2 _ => "p2"
  | .lc _ => "lc"
  | .le _ => "le"
  | .payload _ => "payload"
  | .did _ => "did"
  | .fwt _ => "fwt"

/-- The value of `mask=` in a line, none where there is no such operand. DESIGN CHOICE (log entry 8): R45 says nothing
of a line that names an operand twice; the model takes the last value written. -/
def asmMask (ops : List AsmOperand) : Option Mask :=
  match ops with
  | [] => none
  | .mask m :: rest => some ((asmMask rest).getD m)
  | _ :: rest => asmMask rest

/-- One named operand put on its port; `mask=` has none, it goes into the command word. -/
def setPort (o : Operands) (a : AsmOperand) : Operands :=
  match a with
  | .mask _ => o
  | .span v => { o with span := v }
  | .cla v => { o with descriptor := { o.descriptor with cla := v } }
  | .ins v => { o with descriptor := { o.descriptor with ins := v } }
  | .p1 v => { o with descriptor := { o.descriptor with p1 := v } }
  | .p2 v => { o with descriptor := { o.descriptor with p2 := v } }
  | .lc v => { o with descriptor := { o.descriptor with lc := v } }
  | .le v => { o with descriptor := { o.descriptor with le := v } }
  | .payload v => { o with descriptor := { o.descriptor with payload := v } }
  | .did v => { o with did := v }
  | .fwt v => { o with fwt := v }

/-- The operation a line names: format CM takes its mask from `mask=` and is no command without it, format C0 takes
none (R45). -/
def asmInstr (l : AsmLine) : Option Instr :=
  match l.mnemonic, asmMask l.operands with
  | .crcCompute, none => some .crcCompute
  | .crcCheck, none => some .crcCheck
  | .encodeIblock, some m => some (.encodeIblock m)
  | .encodeWtxAck, none => some .encodeWtxAck
  | .classify, none => some .classify
  | .validate, none => some .validate
  | .decodeIblock, some m => some (.decodeIblock m)
  | .encodeIblock, none => none
  | .decodeIblock, none => none
  | _, some _ => none

/-- The command a line assembles to: the word `(MASK << 4) OR OP` or `OP`, and the operands on their ports (R45), each
port at the last value the line writes to it (DESIGN CHOICE: log entry 8). -/
def assemble (l : AsmLine) : Option Command :=
  (asmInstr l).map fun i => { word := encode i, operands := l.operands.foldl setPort Operands.idle }

/-- The descriptor operands of a line, in the order R45 names them. -/
def descriptorOperands (d : Descriptor) : List AsmOperand :=
  [.cla d.cla, .ins d.ins, .p1 d.p1, .p2 d.p2, .lc d.lc, .payload d.payload, .le d.le]

/-- The line of an operation with the operands it names (R17, R45). -/
def disassemble (i : Instr) (o : Operands) : AsmLine :=
  match i with
  | .crcCompute => { mnemonic := .crcCompute, operands := [.span o.span] }
  | .crcCheck => { mnemonic := .crcCheck, operands := [.span o.span] }
  | .encodeIblock m =>
    { mnemonic := .encodeIblock, operands := .mask m :: descriptorOperands o.descriptor ++ [.did o.did] }
  | .encodeWtxAck => { mnemonic := .encodeWtxAck, operands := [.fwt o.fwt] }
  | .classify => { mnemonic := .classify, operands := [.span o.span] }
  | .validate => { mnemonic := .validate, operands := [.span o.span] }
  | .decodeIblock m => { mnemonic := .decodeIblock, operands := [.mask m, .span o.span] }

end Sys2Proof.Machine
end

