-- ==== Sys2Proof/Machine/Instances.lean ====
section
/-! DEFINITION. Several instances of the block side by side (10_state.md R22, 60_exceptions.md R89): each has its own
state, and they exchange nothing. -/

namespace Sys2Proof.Machine

/-- The instances of the block in one system, numbered from 0. -/
abbrev Instances := List State

/-- Instance `k` takes one step of its own; an instance that does not exist takes none. -/
def instanceStep (k : Nat) (blocks : Instances) : Host.Outcome Instances Fault Refusal :=
  match blocks[k]? with
  | none => .next blocks
  | some s =>
    match step s with
    | .next t => .next (blocks.set k t)
    | .fault f => .fault f
    | .refused r => .refused r

end Sys2Proof.Machine
end

