-- ==== Sys2Proof/Safety.lean ====
section
/-! DEFINITION. What counts as a safe run, in the terms the claims use: the events the boundary admits, the records
the block may return, the information-block frames a run emits, and the orderings the host must keep
(70_reset_and_hazards.md R94 to R99). -/

namespace Sys2Proof.Machine

/-- The boundary admits an event: a reset, or one command whose word is illegal (it reads no operand, R83) or whose
named operands are admitted (R82). -/
def eventAdmitted (e : HostEvent) : Bool :=
  match e with
  | .reset => true
  | .command c =>
    match decode c.word with
    | .ok i => operandsAdmitted i c.operands
    | .error _ => true
  | .concurrent _ _ _ => false

/-- The operations that name `SPAN` (R17). -/
def namesSpan (i : Instr) : Bool :=
  match i with
  | .crcCompute => true
  | .crcCheck => true
  | .encodeIblock _ => false
  | .encodeWtxAck => false
  | .classify => true
  | .validate => true
  | .decodeIblock _ => true

/-- Two operand ports agree on the operands an operation names (R17). -/
def agreeOnNamed (i : Instr) (o o' : Operands) : Prop :=
  match i with
  | .crcCompute => o.span = o'.span
  | .crcCheck => o.span = o'.span
  | .encodeIblock _ => o.descriptor = o'.descriptor ∧ o.did = o'.did
  | .encodeWtxAck => o.fwt = o'.fwt
  | .classify => o.span = o'.span
  | .validate => o.span = o'.span
  | .decodeIblock _ => o.span = o'.span

/-- The only command that reads and may write `SEQ`: ENCODE_IBLOCK with the header selected (R14, R58). -/
def touchesSeq (i : Instr) : Bool :=
  match i with
  | .encodeIblock mask => selects mask .header
  | .crcCompute => false
  | .crcCheck => false
  | .encodeWtxAck => false
  | .classify => false
  | .validate => false
  | .decodeIblock _ => false

/-- The fields of DECODE_IBLOCK of a record, with a code and no other field. -/
def decodedPart (code : ResCode) (r : ResultRecord) : ResultRecord :=
  { res := code
    dHdr := r.dHdr
    dDid := r.dDid
    dCla := r.dCla
    dIns := r.dIns
    dP1 := r.dP1
    dP2 := r.dP2
    dLc := r.dLc
    dPayload := r.dPayload
    dLe := r.dLe
    dCrc := r.dCrc }

/-- The records R19 allows with OK, each with the fields of its operation and no other: a CRC (CRC_COMPUTE), a zero
residue among them (CRC_CHECK); a frame (ENCODE_IBLOCK, ENCODE_WTX_ACK); a classified header (CLASSIFY); a status
0x9000 with its window and data (VALIDATE, R77); the decoded fields (DECODE_IBLOCK). -/
def OkRecord (r : ResultRecord) : Prop :=
  (∃ c, r = { res := .ok, crc := some c }) ∨
  (∃ f, r = { res := .ok, frame := some f }) ∨
  (∃ h k, r =
    { res := .ok, hdr := some h, kind := some k, blk := r.blk, sub := r.sub, fwt := r.fwt, crc4Ok := r.crc4Ok }) ∨
  (∃ w d, r = { res := .ok, sw := some 0x9000, window := some w, data := some d }) ∨
  r = decodedPart .ok r

/-- The records R80 allows with CRC_MISMATCH: a residue that is not zero (CRC_CHECK), nothing but `RES` (VALIDATE,
R76), or the decoded fields with `D_CRC` among them (DECODE_IBLOCK, R72). -/
def CrcMismatchRecord (r : ResultRecord) : Prop :=
  (∃ c, c ≠ 0x0000 ∧ r = { res := .crcMismatch, crc := some c }) ∨
  r = { res := .crcMismatch } ∨
  (r.dCrc.isSome = true ∧ r = decodedPart .crcMismatch r)

/-- A record as R19 and R80 allow it: every span inside its width, and every field there only with the outcome that
names it. One clause for each code of R20 says which fields may stand beside it, so `FRAME` comes with OK only, an OK
status is 0x9000, and `CRC4_OK` comes with `HDR` only. -/
structure RecordLegal (r : ResultRecord) : Prop where
  /-- `FRAME` has at most 255 bytes (R19, R31). -/
  frame_width : ∀ f, r.frame = some f → f.length ≤ 255
  /-- `DATA` has at most 250 bytes (R19). -/
  data_width : ∀ d, r.data = some d → d.length ≤ 250
  /-- `D_PAYLOAD` has at most 246 bytes (R19). -/
  payload_width : ∀ p, r.dPayload = some p → p.length ≤ 246
  /-- OK comes with the fields of one operation and no other (R19, R77). -/
  ok_record : r.res = .ok → OkRecord r
  /-- CRC_MISMATCH comes with a residue, with nothing, or with the decoded fields (R76, R80). -/
  crc_mismatch : r.res = .crcMismatch → CrcMismatchRecord r
  /-- INVALID_LENGTH, ILLEGAL_COMMAND and FRAME_FORMAT come with no other field (R80). -/
  bare_error : r.res = .invalidLength ∨ r.res = .illegalCommand ∨ r.res = .frameFormat → r = { res := r.res }
  /-- CHIP_STATUS comes with `SW`, which is not 0x9000, `WINDOW` and `DATA`, and no other field (R77, R80). -/
  chip_status : r.res = .chipStatus →
    ∃ sw w d, sw ≠ 0x9000 ∧ r = { res := .chipStatus, sw := some sw, window := some w, data := some d }
  /-- `KIND` and `HDR` come together, and `KIND` is the top two bits of `HDR` (R64). -/
  kind_of_header : r.kind.map kindBits = r.hdr.map (BitVec.extractLsb' 6 2)
  /-- `BLK` comes exactly with the kinds I and R (R19, R66). -/
  blk_kinds : r.blk.isSome = true ↔ r.kind = some .information ∨ r.kind = some .receiveReady
  /-- `SUB` comes exactly with kind S (R19, R67). -/
  sub_kind : r.sub.isSome = true ↔ r.kind = some .supervisory
  /-- `FWT` comes only with sub-type WTX (R19, R68). -/
  fwt_sub : r.fwt.isSome = true → r.sub = some .wtx
  /-- The narrow window carries no data (R78). -/
  narrow_data : r.window = some .narrow → r.data = some []
  /-- A decoded payload has `D_LC` bytes where both are selected (R71). -/
  payload_length : ∀ lc p, r.dLc = some lc → r.dPayload = some p → p.length = lc.toNat

/-- The invariant of the result port: whatever stands there is a record R19 and R80 allow. -/
def ResultPortLegal (s : State) : Prop := ∀ r, s.result = some r → RecordLegal r

/-- The frame a step from `s` to `t` emitted, where the step ran an ENCODE_IBLOCK that answered OK with the header
selected: an information block that carries a sequence bit (R58). -/
def iblockEmitted (s t : State) : Option Span :=
  match s.pending with
  | .command c :: _ =>
    match decode c.word with
    | .ok (.encodeIblock mask) =>
      if selects mask .header then
        match t.result with
        | some r => if r.res = .ok then r.frame else none
        | none => none
      else none
    | _ => none
  | _ => none

/-- The information-block frames with a header that `k` steps emit, in order; a stopped run emits no more. -/
def iblocksEmitted : Nat → State → List Span
  | 0, _ => []
  | k + 1, s =>
    match step s with
    | .next t => (iblockEmitted s t).toList ++ iblocksEmitted k t
    | .fault _ => []
    | .refused _ => []

/-- The records `k` steps return, in order (R19); a stopped run returns no more. -/
def recordsReturned : Nat → State → List ResultRecord
  | 0, _ => []
  | k + 1, s =>
    match step s with
    | .next t => t.result.toList ++ recordsReturned k t
    | .fault _ => []
    | .refused _ => []

/-- How many commands are among some events. -/
def commandCount (es : List HostEvent) : Nat :=
  match es with
  | [] => 0
  | .command _ :: rest => commandCount rest + 1
  | .reset :: rest => commandCount rest
  | .concurrent _ _ _ :: rest => commandCount rest

/-- The sequence bit a frame's header carries: bit 0 of its first byte (R54). -/
def seqBitOf (f : Span) : Option (BitVec 1) := f.head?.map (BitVec.extractLsb' 0 1)

/-- Frames whose sequence bits alternate, the first differing from `last` (R61). -/
def Alternates (last : BitVec 1) (frames : List Span) : Prop :=
  match frames with
  | [] => True
  | f :: rest => seqBitOf f = some (~~~last) ∧ Alternates (~~~last) rest

/-- What the host puts on the wire when it keeps R94 and R95: every encoded frame, in the order it was encoded, each
sent one or more times in a row from the copy the host holds. -/
inductive SentInOrder : List Span → List Span → Prop where
  | done : SentInOrder [] []
  | send (f : Span) {encoded wire : List Span} : SentInOrder encoded wire → SentInOrder (f :: encoded) (f :: wire)
  | resend (f : Span) {encoded wire : List Span} :
      SentInOrder (f :: encoded) (f :: wire) → SentInOrder (f :: encoded) (f :: f :: wire)

/-- Each frame on the wire repeats the one before it or carries the other sequence bit, the first one the other bit
than `last`. -/
def WireAlternates (last : BitVec 1) (wire : List Span) : Prop :=
  match wire with
  | [] => True
  | [f] => seqBitOf f = some (~~~last)
  | f :: g :: rest =>
    seqBitOf f = some (~~~last) ∧ ((g = f ∧ WireAlternates last (g :: rest)) ∨ WireAlternates (~~~last) (g :: rest))

/-- A frame that is a wait-time-extension request: the top four bits of its header are ones, `h[7:6]` for kind S (R64)
and `h[5:4]` for sub-type WTX (R67). -/
def isWtxRequest (span : Span) : Bool :=
  match span with
  | [] => false
  | h :: _ => decide (h.toNat / 16 = 15)

/-- A record that reports a frame as `S`/`WTX` (R67, R96). -/
def ReportsWtx (r : ResultRecord) : Prop := r.kind = some .supervisory ∧ r.sub = some .wtx

/-- What one step from `s` to `t` gave the host: the command it took with the record it returned, nothing when it took
no command. -/
def exchange (s t : State) : Option (Command × ResultRecord) :=
  match s.pending, t.result with
  | .command c :: _, some r => some (c, r)
  | _, _ => none

/-- The commands `k` steps take, each with the record the block returned for it, in order. -/
def exchanges : Nat → State → List (Command × ResultRecord)
  | 0, _ => []
  | k + 1, s =>
    match step s with
    | .next t => (exchange s t).toList ++ exchanges k t
    | .fault _ => []
    | .refused _ => []

/-- After `k` steps the next command the block takes is `c`. -/
def IssuedAfter (k : Nat) (s : State) (c : Command) : Prop :=
  ∃ u rest, Host.Core.run core k s = .next u ∧ u.pending = .command c :: rest

/-- Within `k` steps the host ran CLASSIFY on the frame `f` and the block returned the record `r`. -/
def Classified (k : Nat) (s : State) (f : Span) (r : ResultRecord) : Prop :=
  ∃ c, (c, r) ∈ exchanges k s ∧ decode c.word = .ok .classify ∧ c.operands.span = f

/-- The host keeps R96 and R97 in its first `k + 1` commands, as it can: by the records the block returned.
`mayBe` is the host's own judgement which received frames may be a wait-time-extension request. DESIGN CHOICE (log entry
14): R96 leaves that judgement to the host, and the model asks only that it miss no request; a frame is known by its
bytes, and a record the host has got counts from then on, also after a reset. -/
structure HostKeepsOrder (mayBe : Span → Prop) (k : Nat) (s : State) : Prop where
  /-- The host's judgement misses no request. -/
  misses_none : ∀ f, isWtxRequest f = true → mayBe f
  /-- R96: a frame that may be a request goes to VALIDATE only after CLASSIFY. -/
  classifies_first : ∀ j c, j ≤ k → IssuedAfter j s c → decode c.word = .ok .validate → mayBe c.operands.span →
    ∃ r, Classified j s c.operands.span r
  /-- R96: a frame CLASSIFY has reported as `S`/`WTX` does not go to VALIDATE. -/
  validates_no_request : ∀ j c r, j ≤ k → IssuedAfter j s c → decode c.word = .ok .validate →
    Classified j s c.operands.span r → ¬ ReportsWtx r
  /-- R97: ENCODE_WTX_ACK gets the FWT byte that CLASSIFY returned for a request. -/
  acknowledges_requests : ∀ j c, j ≤ k → IssuedAfter j s c → decode c.word = .ok .encodeWtxAck →
    ∃ f r, Classified j s f r ∧ ReportsWtx r ∧ r.fwt = some c.operands.fwt

end Sys2Proof.Machine
end

