-- ==== Sys2Proof/Certificates/Slice0/Obligations.lean ====
section
/-! DEFINITION. The statements for the provers. Each docstring names the rule of spec/ it formalises. The functions of
`Sys2Proof.Claims` are the rules' own formulas, on naturals and positions, independent of the model's definitions. -/

namespace Sys2Proof.Claims

open Sys2Proof.Machine

/-- Bit `i` of the mask as a natural number (R42). -/
def maskBit (mask : Mask) (i : Nat) : Nat := (mask.getLsbD i).toNat

/-- The sum of R42 for payload length `n`. -/
def flenSum (mask : Mask) (n : Nat) : Nat :=
  maskBit mask 0 + maskBit mask 1 + maskBit mask 2 + maskBit mask 3 + maskBit mask 4 + maskBit mask 5 + maskBit mask 6
    + maskBit mask 8 + 2 * maskBit mask 9 + n * maskBit mask 7

/-- The low byte of a 16-bit value, by division. -/
def loByte (c : Word) : Byte := BitVec.ofNat 8 (c.toNat % 256)

/-- The high byte of a 16-bit value, by division. -/
def hiByte (c : Word) : Byte := BitVec.ofNat 8 (c.toNat / 256)

/-- The header byte of R54: 2, the sequence bit, and 8 when the parameter and the device-id field ask for it. -/
def headerOf (cfg : Config) (mask : Mask) (seq : BitVec 1) : Byte :=
  BitVec.ofNat 8 (2 + seq.toNat + if cfg.hdrDidBit = true ∧ mask.getLsbD 1 = true then 8 else 0)

/-- The payload field of R55. -/
def payloadOf (d : Descriptor) : Span := d.payload.getD (List.replicate d.lc.toNat 0)

/-- The content of the `i`-th field of the emission order before the CRC (R41, R53 to R56). -/
def fieldContent (cfg : Config) (mask : Mask) (seq : BitVec 1) (d : Descriptor) (did : Byte) (i : Nat) : Span :=
  match i with
  | 0 => [headerOf cfg mask seq]
  | 1 => [did]
  | 2 => [d.cla]
  | 3 => [d.ins]
  | 4 => [d.p1]
  | 5 => [d.p2]
  | 6 => [d.lc]
  | 7 => payloadOf d
  | 8 => [d.le.getD 0x00]
  | _ => []

/-- The bytes before the CRC: field by field for rising `i`, where bit `i` of the mask is set (R53). -/
def bodyOf (cfg : Config) (mask : Mask) (seq : BitVec 1) (d : Descriptor) (did : Byte) : Span :=
  (List.range 9).flatMap fun i => if mask.getLsbD i then fieldContent cfg mask seq d did i else []

/-- A span with its CRC appended, low byte first (R26, R57). -/
def withCrc (body : Span) : Span := body ++ [loByte (crc16 body), hiByte (crc16 body)]

/-- The frame of R53 to R57. -/
def frameOf (cfg : Config) (mask : Mask) (seq : BitVec 1) (d : Descriptor) (did : Byte) : Span :=
  if mask.getLsbD 9 then withCrc (bodyOf cfg mask seq d did) else bodyOf cfg mask seq d did

/-- The sequence bit an ENCODE_IBLOCK that answers OK leaves (R58). -/
def newSeq (mask : Mask) (seq : BitVec 1) : BitVec 1 := if mask.getLsbD 0 then ~~~seq else seq

/-- Where the `i`-th field of a frame starts, for a field up to the payload: one byte for each selected field before
it (R72). -/
def fieldPos (mask : Mask) (i : Nat) : Nat := ((List.range i).map (maskBit mask)).sum

/-- A one-byte field before the payload, by its position. -/
def byteField (mask : Mask) (span : Span) (i : Nat) : Option Byte :=
  if mask.getLsbD i then span[fieldPos mask i]? else none

/-- The payload length `n` of R71. -/
def payloadLen (mask : Mask) (span : Span) : Nat :=
  if mask.getLsbD 7 then
    if mask.getLsbD 6 then ((span[fieldPos mask 6]?).map BitVec.toNat).getD 0 else span.length - flenSum mask 0
  else 0

/-- A span is well-formed for a mask (R71). -/
def wellFormedFor (mask : Mask) (span : Span) : Prop :=
  flenSum mask 0 ≤ span.length ∧ payloadLen mask span ≤ 246 ∧ flenSum mask 0 + payloadLen mask span = span.length

/-- The last two bytes of a span, the earlier one low. -/
def trailingCrc (span : Span) : Option Word :=
  match span[span.length - 2]?, span[span.length - 1]? with
  | some lo, some hi => some (BitVec.ofNat 16 (lo.toNat + 256 * hi.toNat))
  | _, _ => none

/-- The record of R72 for a well-formed span, each field by its position. -/
def decodedOf (mask : Mask) (span : Span) : ResultRecord :=
  { res := if mask.getLsbD 9 = true ∧ crc16 span ≠ 0 then .crcMismatch else .ok
    dHdr := byteField mask span 0
    dDid := byteField mask span 1
    dCla := byteField mask span 2
    dIns := byteField mask span 3
    dP1 := byteField mask span 4
    dP2 := byteField mask span 5
    dLc := byteField mask span 6
    dPayload :=
      if mask.getLsbD 7 then some ((span.drop (fieldPos mask 7)).take (payloadLen mask span)) else none
    dLe := if mask.getLsbD 8 then span[fieldPos mask 7 + payloadLen mask span]? else none
    dCrc := if mask.getLsbD 9 then trailingCrc span else none }

/-- The kind of R64 and R65, by the header's value. -/
def kindOf (h : Byte) : BlockKind :=
  if h.toNat < 64 then .information
  else if h.toNat < 128 then .reserved
  else if h.toNat < 192 then .receiveReady
  else .supervisory

/-- The sub-type of R67, by the header's bits 5 and 4. -/
def subOf (h : Byte) : SubType :=
  if h.toNat / 16 % 4 = 3 then .wtx else if h.toNat / 16 % 4 = 0 then .deselect else .other

/-- The status of two bytes, the earlier one high (R27). -/
def statusOf (a b : Byte) : Word := BitVec.ofNat 16 (256 * a.toNat + b.toNat)

/-- `RES` of a status (R77). -/
def resOfStatus (sw : Word) : ResCode := if sw = 0x9000 then .ok else .chipStatus

/-- The operation codes of R40 with format C0. -/
def c0Op (op : Nat) : Prop := op = 1 ∨ op = 2 ∨ op = 4 ∨ op = 5 ∨ op = 6

/-- The operation codes of R40 with format CM. -/
def cmOp (op : Nat) : Prop := op = 3 ∨ op = 7

/-- The illegal words of R43, clauses (a), (b) and (c), on the word's value. -/
def illegalWord (w : Word) : Prop :=
  (w.toNat % 16 = 0 ∨ 8 ≤ w.toNat % 16) ∨ (c0Op (w.toNat % 16) ∧ w.toNat / 16 ≠ 0) ∨
    (cmOp (w.toNat % 16) ∧ w.toNat / 16384 ≠ 0)

/-- No reset among the next `k` host events. -/
def noReset (k : Nat) (s : State) : Prop := ∀ e ∈ s.pending.take k, e ≠ .reset

end Sys2Proof.Claims

open Sys2Proof Sys2Proof.Machine

/-! ## Encoding -/

/-- R40, R44: decoding an encoded operation gives it back, with every mask. -/
def Obligations.DecodeInvertsEncode : Prop :=
  ∀ i : Instr, decode (encode i) = .ok i

/-- R40, R43: each legal word has one meaning, so encoding what a word decodes to gives the word back: no bit of a
legal word is dropped. -/
def Obligations.EncodeInvertsDecode : Prop :=
  ∀ (w : Word) (i : Instr), decode w = .ok i → encode i = w

/-- R40: the seven rows of the table, each by its match and mask, the mask operand being bits 13 to 4. -/
def Obligations.DecodeFollowsTheRowsOfTheTable : Prop :=
  ∀ w : Word,
    (decode w = .ok .crcCompute ↔ w &&& 0xFFFF = 0x0001) ∧
    (decode w = .ok .crcCheck ↔ w &&& 0xFFFF = 0x0002) ∧
    (∀ m, decode w = .ok (.encodeIblock m) ↔ w &&& 0xC00F = 0x0003 ∧ m.toNat = w.toNat / 16 % 1024) ∧
    (decode w = .ok .encodeWtxAck ↔ w &&& 0xFFFF = 0x0004) ∧
    (decode w = .ok .classify ↔ w &&& 0xFFFF = 0x0005) ∧
    (decode w = .ok .validate ↔ w &&& 0xFFFF = 0x0006) ∧
    (∀ m, decode w = .ok (.decodeIblock m) ↔ w &&& 0xC00F = 0x0007 ∧ m.toNat = w.toNat / 16 % 1024)

/-- R43: an illegal word, and no other, is rejected by the decoder; presented with any operands it returns
ILLEGAL_COMMAND with no other field and no change of `SEQ`; and every other word is one of the rows of R40. That this
holds beside operands that are not admitted is the model's reading: log entry 7. -/
def Obligations.IllegalWordsReturnIllegalCommand : Prop :=
  (∀ w : Word, Claims.illegalWord w ↔ ¬ ∃ i, decode w = .ok i) ∧
  ∀ (s : State) (c : Command) (rest : List HostEvent), s.pending = .command c :: rest →
    Claims.illegalWord c.word →
    ∃ t, step s = .next t ∧ t.result = some { res := .illegalCommand } ∧ t.seq = s.seq ∧ t.config = s.config ∧
      t.pending = rest

/-- R40: words written out from the table's patterns decode to the operations they stand for. A sanity statement. -/
def Obligations.SampleWordsDecodeAsWritten : Prop :=
  decode 0b0000000000000001 = .ok .crcCompute ∧ decode 0b0000000000000010 = .ok .crcCheck ∧
  decode 0b0010111111010011 = .ok (.encodeIblock 0b1011111101) ∧ decode 0b0000000000000100 = .ok .encodeWtxAck ∧
  decode 0b0000000000000101 = .ok .classify ∧ decode 0b0000000000000110 = .ok .validate ∧
  decode 0b0011001111010111 = .ok (.decodeIblock 0b1100111101) ∧ decode 0b0100000000000011 = .error .reservedBitsCM

/-- R45: the line that names an operation and its operands assembles to the word `(MASK << 4) OR OP` or `OP`, with
every operand the operation names on its port. The cut of the text into names and values is left out: log entry 8. -/
def Obligations.LinesAssembleToTheirCommand : Prop :=
  (∀ i o, ∃ o', assemble (disassemble i o) = some { word := encode i, operands := o' } ∧ agreeOnNamed i o o') ∧
  (∀ m : Mask, (encode (.encodeIblock m)).toNat = 16 * m.toNat + 3 ∧
    (encode (.decodeIblock m)).toNat = 16 * m.toNat + 7)

/-! ## The step -/

/-- R11, R33, R44: when the oldest host event is a command whose word decodes to `i`, the step is `exec i` at the
state with the command's operands at the ports. The ports' form is the model's choice: log entries 3, 4 and 5. -/
def Obligations.StepRunsTheDecodedCommand : Prop :=
  ∀ (s : State) (c : Command) (rest : List HostEvent) (i : Instr),
    s.pending = .command c :: rest → decode c.word = .ok i →
    step s = exec i { s with operands := c.operands, pending := rest, result := none }

/-- The placing of a word as the next command (log entry 6, the model's choice): the very next step runs the operation
that the word encodes, with the operands at the ports. -/
def Obligations.PlacedWordRunsNext : Prop :=
  ∀ (s : State) (i : Instr), step (s.withFetchWord 16 (encode i).toNat) = exec i { s with result := none }

/-- R11, R16, R85: nothing persists from one command to the next but `SEQ`; two blocks with the same `SEQ`, the same
parameter and the same host events step alike, whatever the last command left at the ports. -/
def Obligations.OnlySeqPersists : Prop :=
  ∀ s s' : State, s.seq = s'.seq → s.config = s'.config → s.pending = s'.pending → step s = step s'

/-- With no host event the block keeps `SEQ` and returns nothing. The model's choice: log entry 3. -/
def Obligations.IdleBlockKeepsSeq : Prop :=
  ∀ s : State, s.pending = [] →
    ∃ t, step s = .next t ∧ t.seq = s.seq ∧ t.config = s.config ∧ t.pending = [] ∧ t.result = none

/-- R90: reset sets `SEQ` to 1 and has no other effect, no result is returned, and no command resets `SEQ`: whatever
its word, a command toggles it when it is an ENCODE_IBLOCK with the header selected that answers OK (R58), and otherwise
leaves it. -/
def Obligations.ResetSetsSeqToOne : Prop :=
  State.reset.seq = 1 ∧
  (∀ (s : State) (rest : List HostEvent), s.pending = .reset :: rest →
    ∃ t, step s = .next t ∧ t.seq = 1 ∧ t.config = s.config ∧ t.pending = rest ∧ t.result = none) ∧
  (∀ (s t : State) (c : Command) (rest : List HostEvent) (r : ResultRecord), s.pending = .command c :: rest →
    step s = .next t → t.result = some r →
    (∀ mask, decode c.word = .ok (.encodeIblock mask) → mask.getLsbD 0 = true → r.res = .ok → t.seq = ~~~s.seq) ∧
    ((∀ mask, decode c.word = .ok (.encodeIblock mask) → mask.getLsbD 0 = false ∨ r.res ≠ .ok) → t.seq = s.seq))

/-- R82: what the boundary refuses, with no step taken: a span over 255 bytes for an operation that names one, a
present payload whose length is not `LC`, and two commands at once. -/
def Obligations.BoundaryRefusals : Prop :=
  (∀ (i : Instr) (s : State), namesSpan i = true → 255 < s.operands.span.length →
    exec i s = .refused .spanTooLong) ∧
  (∀ (mask : Mask) (s : State) (p : Span), s.operands.descriptor.payload = some p →
    p.length ≠ s.operands.descriptor.lc.toNat → exec (.encodeIblock mask) s = .refused .payloadLengthMismatch) ∧
  (∀ (s : State) (c d : Command) (more : List Command) (rest : List HostEvent),
    s.pending = .concurrent c d more :: rest → step s = .refused .concurrentCommands)

/-- R19, R82, R99: a command always completes, and returns exactly one record, when its named operands are admitted,
and only then. That operands it does not name refuse nothing is the model's reading: log entry 10. -/
def Obligations.CommandsCompleteExactlyWhenAdmitted : Prop :=
  ∀ (i : Instr) (s : State),
    (operandsAdmitted i s.operands = true → ∃ t r, exec i s = .next t ∧ t.result = some r) ∧
    (operandsAdmitted i s.operands = false → ∃ r, exec i s = .refused r)

/-- R19, R33, R99: a host that presents only admitted events, one at a time, sees the block take every one of them, in
order, and gets one record for each command and for nothing else. The schedule's form is the model's choice: log
entry 3. -/
def Obligations.AdmittedSchedulesRunToTheEnd : Prop :=
  ∀ s : State, (∀ e ∈ s.pending, eventAdmitted e = true) →
    ∃ u, Host.Core.run core s.pending.length s = .next u ∧ u.pending = [] ∧
      (recordsReturned s.pending.length s).length = commandCount s.pending

/-- R22, R89: instances share no state: a step of one block is a step of its own state alone, and leaves every other
block as it was. The list of instances that step one at a time is the model's choice: log entry 12. -/
def Obligations.InstancesAreIndependent : Prop :=
  ∀ (k : Nat) (blocks : Instances) (s : State), blocks[k]? = some s →
    (∀ t, step s = .next t →
      ∃ blocks', instanceStep k blocks = .next blocks' ∧ blocks'[k]? = some t ∧
        ∀ j, j ≠ k → blocks'[j]? = blocks[j]?) ∧
    (∀ r, step s = .refused r → instanceStep k blocks = .refused r)

/-! ## What every operation leaves alone -/

/-- The frame of all seven operations (R11, R14, R58): when one answers a next state, the parameter, the host's events
and the operand ports are unchanged, and `SEQ` is unchanged but for an ENCODE_IBLOCK with the header selected that
answers OK, which toggles it. -/
def Obligations.FrameOfEveryOperation : Prop :=
  ∀ (i : Instr) (s t : State), exec i s = .next t →
    t.config = s.config ∧ t.pending = s.pending ∧ t.operands = s.operands ∧
    (t.seq = s.seq ∨
      (∃ mask r, i = .encodeIblock mask ∧ mask.getLsbD 0 = true ∧ t.result = some r ∧ r.res = .ok ∧
        t.seq = ~~~s.seq))

/-- R14, R66: `SEQ` is read by ENCODE_IBLOCK with the header selected only: any other operation gives the same record,
and leaves any other `SEQ` as it was. -/
def Obligations.SeqReachesNoOtherResult : Prop :=
  ∀ (i : Instr) (s t : State) (v : BitVec 1), touchesSeq i = false → exec i s = .next t →
    exec i { s with seq := v } = .next { t with seq := v }

/-- R17: an operand the operation does not name is ignored, also one that would not be admitted (the model's reading:
log entry 10). -/
def Obligations.UnnamedOperandsAreIgnored : Prop :=
  ∀ (i : Instr) (s : State) (o : Operands), agreeOnNamed i s.operands o →
    (∀ t, exec i s = .next t → exec i { s with operands := o } = .next { t with operands := o }) ∧
    (∀ r, exec i s = .refused r → exec i { s with operands := o } = .refused r)

/-- R30: issuing the same command again gives the same result and state, except ENCODE_IBLOCK with the header
selected, whose second issue finds `SEQ` toggled by the first. -/
def Obligations.CommandsAreIdempotentButHeaderEncodes : Prop :=
  (∀ (i : Instr) (s t : State), touchesSeq i = false → exec i s = .next t → exec i t = .next t) ∧
  (∀ (mask : Mask) (s t : State) (r : ResultRecord), mask.getLsbD 0 = true →
    exec (.encodeIblock mask) s = .next t → t.result = some r → r.res = .ok →
    ∃ u q, exec (.encodeIblock mask) t = .next u ∧ u.result = some q ∧ q.res = .ok ∧ u.seq = ~~~t.seq ∧
      q.frame ≠ r.frame)

/-- R84: a command that returns an error changes no state, in particular `SEQ`, and its record carries only the fields
R80 names: CRC_CHECK the residue, DECODE_IBLOCK the decoded fields, a reported status `SW`, `WINDOW` and `DATA`, any
other error nothing but `RES`. -/
def Obligations.ErrorsChangeNoState : Prop :=
  ∀ (i : Instr) (s t : State) (r : ResultRecord), exec i s = .next t → t.result = some r → r.res ≠ .ok →
    t = { s with result := some r } ∧
    (r.res = .invalidLength ∨ r.res = .illegalCommand ∨ r.res = .frameFormat → r = { res := r.res }) ∧
    (r.res = .chipStatus →
      ∃ sw w d, r = { res := .chipStatus, sw := some sw, window := some w, data := some d }) ∧
    (r.res = .crcMismatch →
      (i = .crcCheck ∧ ∃ c, r = { res := .crcMismatch, crc := some c }) ∨
      (i = .validate ∧ r = { res := .crcMismatch }) ∨
      (∃ mask, i = .decodeIblock mask ∧ r = Claims.decodedOf mask s.operands.span))

/-- R19, R20, R76, R77, R80: every step keeps the result port legal: spans inside their widths, and each field there
only with the outcome that names it, code by code (`RecordLegal`). -/
def Obligations.StepKeepsTheResultPortLegal : Prop :=
  ∀ s t : State, ResultPortLegal s → step s = .next t → ResultPortLegal t

/-- The result port is legal at reset, when nothing stands there. -/
def Obligations.ResultPortLegalAtReset : Prop := ResultPortLegal State.reset

/-! ## The CRC Engine -/

/-- R47: the four-step update, on the values of the byte and the accumulator. -/
def Obligations.CrcStepIsTheFourStepRecurrence : Prop :=
  ∀ (ch : Byte) (crc : Word),
    let a := ch.toNat ^^^ (crc.toNat % 256)
    let t := a ^^^ (a * 16 % 256)
    (crcStep crc ch).toNat = (crc.toNat / 256) ^^^ (t * 256 % 65536) ^^^ (t * 8 % 65536) ^^^ (t / 16)

/-- R48: the accumulator starts at 0x6363, each byte is folded in, and the final accumulator is returned as it is. -/
def Obligations.Crc16FoldsEachByte : Prop :=
  crc16 [] = 0x6363 ∧ ∀ (s : Span) (b : Byte), crc16 (s ++ [b]) = crcStep (crc16 s) b

/-- R49: the bit-serial form with 0x8408 gives the same CRC on every span, and the catalogue's check value. -/
def Obligations.BitSerialCrcAgrees : Prop :=
  (∀ s : Span, crc16Serial s = crc16 s) ∧
  crc16Serial [0x31, 0x32, 0x33, 0x34, 0x35, 0x36, 0x37, 0x38, 0x39] = 0xBF05

/-- R50: a span with its own CRC appended, low byte first, has residue zero. -/
def Obligations.OwnCrcLeavesZeroResidue : Prop :=
  ∀ b : Span, crc16 (b ++ [Claims.loByte (crc16 b), Claims.hiByte (crc16 b)]) = 0

/-- R50, the other direction, derived: no other two bytes after a span leave residue zero. -/
def Obligations.OnlyTheOwnCrcLeavesZeroResidue : Prop :=
  ∀ (b : Span) (x y : Byte), crc16 (b ++ [x, y]) = 0 → x = Claims.loByte (crc16 b) ∧ y = Claims.hiByte (crc16 b)

/-- R51: CRC_COMPUTE, its word, its record on every admitted span, and its corner cases. -/
def Obligations.CrcComputeResult : Prop :=
  encode .crcCompute = 0x0001 ∧
  (∀ s : State, s.operands.span.length ≤ 255 →
    exec .crcCompute s = .next { s with result := some { res := .ok, crc := some (crc16 s.operands.span) } }) ∧
  crc16 [] = 0x6363 ∧ (∀ b : Span, crc16 (Claims.withCrc b) = 0x0000) ∧ crc16 [0x00, 0x00] = 0x1EA0 ∧
  Claims.withCrc [0x00, 0x00] = [0x00, 0x00, 0xA0, 0x1E]

/-- R52, the operation: CRC_CHECK returns the residue, with OK when it is zero and CRC_MISMATCH otherwise. The
single-bit corner case is a statement of its own. -/
def Obligations.CrcCheckResult : Prop :=
  encode .crcCheck = 0x0002 ∧
  (∀ s : State, s.operands.span.length ≤ 255 → crc16 s.operands.span = 0x0000 →
    exec .crcCheck s = .next { s with result := some { res := .ok, crc := some 0x0000 } }) ∧
  (∀ s : State, s.operands.span.length ≤ 255 → crc16 s.operands.span ≠ 0x0000 →
    exec .crcCheck s =
      .next { s with result := some { res := .crcMismatch, crc := some (crc16 s.operands.span) } }) ∧
  crc16 [0x63, 0x63] = 0x0000 ∧ crc16 [0x12, 0x34, 0x26, 0xCF] = 0x0000

/-- R52, the corner case the spec derives from R49: any one bit of a valid frame flipped gives CRC_MISMATCH. -/
def Obligations.CrcCheckCatchesEverySingleBitError : Prop :=
  ∀ (s : State) (f : Span) (i j : Nat), crc16 f = 0x0000 → f.length ≤ 255 → i < f.length → j < 8 →
    s.operands.span = f.modify i (· ^^^ BitVec.twoPow 8 j) →
    ∃ residue, residue ≠ 0x0000 ∧
      exec .crcCheck s = .next { s with result := some { res := .crcMismatch, crc := some residue } }

/-! ## The Frame Codec -/

/-- R42: the length of a frame is the sum over the selected fields, at most 256 for an admitted payload length, and 256
for all fields with 246 payload bytes. -/
def Obligations.FrameLengthIsTheSumOfItsFields : Prop :=
  (∀ (mask : Mask) (n : Nat), flen mask n = Claims.flenSum mask n) ∧
  (∀ (mask : Mask) (n : Nat), n ≤ 246 → flen mask n ≤ 256) ∧ flen 0x3FF 246 = 256

/-- R53 to R57: on an admitted descriptor whose length passes both caps, ENCODE_IBLOCK answers OK with the selected
fields in the fixed order: the header of the new sequence bit, the payload or zeros, the expected length or zero, and
last the CRC of every byte before it. -/
def Obligations.EncodeIblockEmitsTheSelectedFields : Prop :=
  ∀ (mask : Mask) (s : State),
    (∀ p, s.operands.descriptor.payload = some p → p.length = s.operands.descriptor.lc.toNat) →
    s.operands.descriptor.lc.toNat ≤ 246 → Claims.flenSum mask s.operands.descriptor.lc.toNat ≤ 255 →
    exec (.encodeIblock mask) s =
      .next { s with
        seq := Claims.newSeq mask s.seq
        result := some
          { res := .ok
            frame := some
              (Claims.frameOf s.config mask (Claims.newSeq mask s.seq) s.operands.descriptor s.operands.did) } }

/-- R60, the remark on the last line of its pseudocode: an emitted frame has `FLEN(MASK, LC)` bytes, so at most 255
(R31). -/
def Obligations.EmittedFramesHaveTheDeclaredLength : Prop :=
  ∀ (mask : Mask) (s t : State) (r : ResultRecord) (f : Span), exec (.encodeIblock mask) s = .next t →
    t.result = some r → r.frame = some f →
    f.length = Claims.flenSum mask s.operands.descriptor.lc.toNat ∧ f.length ≤ 255

/-- R58: an ENCODE_IBLOCK that answers OK with the header selected writes the toggled bit into its header and into
`SEQ`; every other ENCODE_IBLOCK leaves `SEQ` unchanged. -/
def Obligations.SeqTogglesWithEachEmittedHeader : Prop :=
  ∀ (mask : Mask) (s t : State) (r : ResultRecord), exec (.encodeIblock mask) s = .next t → t.result = some r →
    (r.res = .ok → mask.getLsbD 0 = true →
      t.seq = ~~~s.seq ∧ ∃ h rest, r.frame = some (h :: rest) ∧ h.toNat % 2 = t.seq.toNat) ∧
    (r.res ≠ .ok ∨ mask.getLsbD 0 = false → t.seq = s.seq)

/-- R59: ENCODE_IBLOCK answers INVALID_LENGTH, with no frame and `SEQ` unchanged, when `LC` is above 246 or the frame
would be longer than 255 bytes, and the second happens only with all fields selected and `LC = 246`. -/
def Obligations.EncodeIblockLengthErrors : Prop :=
  (∀ (mask : Mask) (s : State),
    (∀ p, s.operands.descriptor.payload = some p → p.length = s.operands.descriptor.lc.toNat) →
    246 < s.operands.descriptor.lc.toNat ∨ 255 < Claims.flenSum mask s.operands.descriptor.lc.toNat →
    exec (.encodeIblock mask) s = .next { s with result := some { res := .invalidLength } }) ∧
  (∀ (mask : Mask) (n : Nat), n ≤ 246 → (255 < Claims.flenSum mask n ↔ mask = 0x3FF ∧ n = 246))

/-- R61 over whole runs: between resets, the sequence bits of the information blocks a block emits alternate, the
first one the other bit than `SEQ`, whatever other commands and failures stand between them. -/
def Obligations.EmittedSequenceBitsAlternate : Prop :=
  ∀ (k : Nat) (s : State), Claims.noReset k s → Alternates s.seq (iblocksEmitted k s)

/-- R14 over whole runs: between resets, `SEQ` holds the sequence bit of the last information-block header the block
emitted, and what it held before where none was. -/
def Obligations.SeqHoldsTheLastEmittedBit : Prop :=
  ∀ (k : Nat) (s u : State), Claims.noReset k s → Host.Core.run core k s = .next u →
    u.seq = ((iblocksEmitted k s).getLast?.bind seqBitOf).getD s.seq

/-- R94, R95: when the host sends every information block it had encoded, in the order of encoding, and resends only
from the copy it holds, each frame on the wire repeats the one before it or carries the other sequence bit. -/
def Obligations.WireSeesStrictAlternation : Prop :=
  ∀ (k : Nat) (s : State) (wire : List Span), Claims.noReset k s → SentInOrder (iblocksEmitted k s) wire →
    WireAlternates s.seq wire

/-- R92: after reset the first information block carries sequence bit 0, header 0x02 with the default parameter. -/
def Obligations.FirstHeaderAfterResetIsTwo : Prop :=
  ∀ (mask : Mask) (o : Operands) (t : State) (r : ResultRecord), mask.getLsbD 0 = true →
    exec (.encodeIblock mask) { State.reset with operands := o } = .next t → t.result = some r → r.res = .ok →
    t.seq = 0 ∧ ∃ rest, r.frame = some (0x02 :: rest)

/-- R62: every frame ENCODE_IBLOCK returns with the CRC selected has residue zero, so CRC_CHECK accepts it. -/
def Obligations.EmittedFramesPassTheCrcCheck : Prop :=
  ∀ (mask : Mask) (s t : State) (r : ResultRecord) (f : Span), mask.getLsbD 9 = true →
    exec (.encodeIblock mask) s = .next t → t.result = some r → r.frame = some f →
    crc16 f = 0x0000 ∧
    ∀ u : State, u.operands.span = f →
      exec .crcCheck u = .next { u with result := some { res := .ok, crc := some 0x0000 } }

/-- R63: ENCODE_WTX_ACK, its word, and for every FWT byte the four-byte frame of header, FWT and CRC, with `SEQ`
unchanged. -/
def Obligations.WtxAckResult : Prop :=
  encode .encodeWtxAck = 0x0004 ∧
  (∀ s : State,
    exec .encodeWtxAck s =
      .next { s with
        result := some
          { res := .ok
            frame := some
              [0xF2, s.operands.fwt, Claims.loByte (crc16 [0xF2, s.operands.fwt]),
                Claims.hiByte (crc16 [0xF2, s.operands.fwt])] } }) ∧
  Claims.withCrc [0xF2, 0x01] = [0xF2, 0x01, 0x91, 0x40]

/-- R63, R68: the acknowledgement of an intact four-byte request with header 0xF2 is the request itself, byte for
byte. -/
def Obligations.WtxAckEchoesAnIntactRequest : Prop :=
  ∀ (s : State) (lo hi : Byte), crc16 [0xF2, s.operands.fwt, lo, hi] = 0x0000 →
    exec .encodeWtxAck s =
      .next { s with result := some { res := .ok, frame := some [0xF2, s.operands.fwt, lo, hi] } }

/-! ## The Block Classifier -/

/-- R64 to R69: CLASSIFY answers OK on every admitted span that is not empty, with the kind, block number, sub-type, FWT
byte and four-byte residue test of the rules. -/
def Obligations.ClassifyReadsTheHeader : Prop :=
  ∀ (s : State) (h : Byte) (rest : Span), s.operands.span = h :: rest → rest.length ≤ 254 →
    exec .classify s =
      .next { s with
        result := some
          { res := .ok
            hdr := some h
            kind := some (Claims.kindOf h)
            blk :=
              if Claims.kindOf h = .information ∨ Claims.kindOf h = .receiveReady then
                some (BitVec.ofNat 1 (h.toNat % 2))
              else none
            sub := if Claims.kindOf h = .supervisory then some (Claims.subOf h) else none
            fwt := if Claims.kindOf h = .supervisory ∧ Claims.subOf h = .wtx then rest.head? else none
            crc4Ok := if 4 ≤ (h :: rest).length then some (decide (crc16 ((h :: rest).take 4) = 0x0000)) else none } }

/-- R70, its first line: an empty span gives FRAME_FORMAT and no other field. -/
def Obligations.ClassifyRejectsAnEmptySpan : Prop :=
  encode .classify = 0x0005 ∧
  ∀ s : State, s.operands.span = [] → exec .classify s = .next { s with result := some { res := .frameFormat } }

/-- R63, R70: a frame ENCODE_WTX_ACK builds is classified as an intact wait-time-extension frame with the same FWT
byte. -/
def Obligations.AcknowledgementsClassifyAsWtx : Prop :=
  ∀ (s t u : State) (r : ResultRecord) (f : Span), exec .encodeWtxAck s = .next t → t.result = some r →
    r.frame = some f → u.operands.span = f →
    exec .classify u =
      .next { u with
        result := some
          { res := .ok
            hdr := some 0xF2
            kind := some .supervisory
            sub := some .wtx
            fwt := some s.operands.fwt
            crc4Ok := some true } }

/-- R54, R64, R66: a frame ENCODE_IBLOCK builds with the header selected is classified as an information block whose
block number is the new `SEQ`. -/
def Obligations.EncodedBlocksClassifyAsInformation : Prop :=
  ∀ (mask : Mask) (s t u : State) (r : ResultRecord) (f : Span), mask.getLsbD 0 = true →
    exec (.encodeIblock mask) s = .next t → t.result = some r → r.frame = some f → u.operands.span = f →
    ∃ v q, exec .classify u = .next v ∧ v.result = some q ∧ q.res = .ok ∧ q.kind = some .information ∧
      q.blk = some t.seq ∧ q.sub = none

/-- R71, R72: DECODE_IBLOCK, its word; on an admitted span well-formed for the mask it answers every selected field by
its position, with CRC_MISMATCH when a selected CRC leaves a residue and OK otherwise; on any other admitted span
FRAME_FORMAT and no other field. -/
def Obligations.DecodeIblockResult : Prop :=
  (∀ mask : Mask, (encode (.decodeIblock mask)).toNat = 16 * mask.toNat + 7) ∧
  (∀ (mask : Mask) (s : State), s.operands.span.length ≤ 255 → Claims.wellFormedFor mask s.operands.span →
    exec (.decodeIblock mask) s = .next { s with result := some (Claims.decodedOf mask s.operands.span) }) ∧
  (∀ (mask : Mask) (s : State), s.operands.span.length ≤ 255 → ¬ Claims.wellFormedFor mask s.operands.span →
    exec (.decodeIblock mask) s = .next { s with result := some { res := .frameFormat } })

/-- R73: the round trip. What ENCODE_IBLOCK emits, DECODE_IBLOCK with the same mask splits back into the values that
went in, each selected field and no other, an absent payload or expected length read back as zeros. -/
def Obligations.DecodeIblockInvertsEncodeIblock : Prop :=
  ∀ (mask : Mask) (s t u : State) (r : ResultRecord) (f : Span), exec (.encodeIblock mask) s = .next t →
    t.result = some r → r.frame = some f → u.operands.span = f →
    exec (.decodeIblock mask) u =
      .next { u with
        result := some
          { res := .ok
            dHdr := if mask.getLsbD 0 then some (Claims.headerOf s.config mask t.seq) else none
            dDid := if mask.getLsbD 1 then some s.operands.did else none
            dCla := if mask.getLsbD 2 then some s.operands.descriptor.cla else none
            dIns := if mask.getLsbD 3 then some s.operands.descriptor.ins else none
            dP1 := if mask.getLsbD 4 then some s.operands.descriptor.p1 else none
            dP2 := if mask.getLsbD 5 then some s.operands.descriptor.p2 else none
            dLc := if mask.getLsbD 6 then some s.operands.descriptor.lc else none
            dPayload := if mask.getLsbD 7 then some (Claims.payloadOf s.operands.descriptor) else none
            dLe := if mask.getLsbD 8 then some (s.operands.descriptor.le.getD 0x00) else none
            dCrc := if mask.getLsbD 9 then some (crc16 (f.take (f.length - 2))) else none } }

/-! ## The Response Validator -/

/-- R74 to R78: VALIDATE tries the full window, then the narrow window, and reports a link error only when neither
passes; a window that passes gives the status, mapped to OK or CHIP_STATUS, and the full window the data. -/
def Obligations.ValidateTriesBothWindows : Prop :=
  (∀ (s : State) (front : Span) (a b x y : Byte), s.operands.span = front ++ [a, b, x, y] →
    s.operands.span.length ≤ 255 → crc16 s.operands.span = 0x0000 →
    exec .validate s =
      .next { s with
        result := some
          { res := Claims.resOfStatus (Claims.statusOf a b)
            sw := some (Claims.statusOf a b)
            window := some .full
            data := some (front.drop 1) } }) ∧
  (∀ (s : State) (h a b x y : Byte) (rest : Span), s.operands.span = h :: a :: b :: x :: y :: rest →
    s.operands.span.length ≤ 255 → crc16 s.operands.span ≠ 0x0000 → crc16 [h, a, b, x, y] = 0x0000 →
    exec .validate s =
      .next { s with
        result := some
          { res := Claims.resOfStatus (Claims.statusOf a b)
            sw := some (Claims.statusOf a b)
            window := some .narrow
            data := some [] } }) ∧
  (∀ s : State, s.operands.span.length ≤ 255 →
    (s.operands.span.length < 4 ∨ crc16 s.operands.span ≠ 0x0000) →
    (s.operands.span.length < 5 ∨ crc16 (s.operands.span.take 5) ≠ 0x0000) →
    exec .validate s = .next { s with result := some { res := .crcMismatch } })

/-- W6 of 95_test_vectors.md, section 1, for every response: header, data, status and correct CRC give the status and
exactly the data bytes. -/
def Obligations.IntactResponsesYieldTheirData : Prop :=
  ∀ (s : State) (h a b : Byte) (d : Span), d.length ≤ 250 →
    s.operands.span = Claims.withCrc (h :: (d ++ [a, b])) →
    exec .validate s =
      .next { s with
        result := some
          { res := Claims.resOfStatus (Claims.statusOf a b)
            sw := some (Claims.statusOf a b)
            window := some .full
            data := some d } }

/-- R79, its corner case of zero padding (C6): four or more zero bytes after a valid frame pass the full window, and
the status is read from the padding. -/
def Obligations.ZeroPaddingIsReadAsStatus : Prop :=
  ∀ (s : State) (f : Span) (n : Nat), crc16 f = 0x0000 → 4 ≤ n → f.length + n ≤ 255 →
    s.operands.span = f ++ List.replicate n 0x00 →
    exec .validate s =
      .next { s with
        result := some
          { res := .chipStatus
            sw := some 0x0000
            window := some .full
            data := some ((f ++ List.replicate (n - 4) 0x00).drop 1) } }

/-- R96, its last sentence: an intact wait-time-extension request given to VALIDATE reports a spurious CHIP_STATUS,
whose status is the request's own header and FWT byte. -/
def Obligations.WtxRequestsValidateAsChipStatus : Prop :=
  ∀ (s : State) (h fwt x y : Byte), s.operands.span = [h, fwt, x, y] →
    isWtxRequest s.operands.span = true → crc16 s.operands.span = 0x0000 →
    exec .validate s =
      .next { s with
        result := some
          { res := .chipStatus, sw := some (Claims.statusOf h fwt), window := some .full, data := some [] } }

/-- R96, R97: where the host keeps the order of 70_reset_and_hazards.md by the records the block returned to it, no
wait-time-extension request reaches VALIDATE, and a frame the host held for a possible request was classified before, and
not as one; and each acknowledgement comes after a CLASSIFY of a request that returned kind S, sub-type WTX and the FWT
byte that the acknowledgement's frame carries. Which frames the host holds for possible requests, and that a frame is
known by its bytes, is the model's choice: log entry 14. -/
def Obligations.OrderlyHostsNeverValidateRequests : Prop :=
  ∀ (mayBe : Span → Prop) (k : Nat) (s : State) (c : Command), HostKeepsOrder mayBe k s → IssuedAfter k s c →
    (decode c.word = .ok .validate →
      isWtxRequest c.operands.span = false ∧
      (mayBe c.operands.span →
        ∃ d r, .command d ∈ s.pending.take k ∧ (d, r) ∈ exchanges k s ∧ decode d.word = .ok .classify ∧
          d.operands.span = c.operands.span ∧ r.sub ≠ some .wtx)) ∧
    (decode c.word = .ok .encodeWtxAck →
      ∃ d r u v, .command d ∈ s.pending.take k ∧ (d, r) ∈ exchanges k s ∧ decode d.word = .ok .classify ∧
        isWtxRequest d.operands.span = true ∧ d.operands.span[1]? = some c.operands.fwt ∧
        r.kind = some .supervisory ∧ r.sub = some .wtx ∧ r.fwt = some c.operands.fwt ∧
        Host.Core.run core k s = .next u ∧ step u = .next v ∧
        v.result = some { res := .ok, frame := some (Claims.withCrc [0xF2, c.operands.fwt]) })

/-- R19, R33: in a run of `k` steps each command among the first `k` host events gets exactly one record, in the order
the host issued them, and the records so paired are all the records the run returns. -/
def Obligations.EachCommandGetsItsRecordInOrder : Prop :=
  ∀ (k : Nat) (s u : State), Host.Core.run core k s = .next u →
    (exchanges k s).map (HostEvent.command ∘ Prod.fst) = (s.pending.take k).filter (· ≠ .reset) ∧
    (exchanges k s).map Prod.snd = recordsReturned k s ∧
    u.pending = s.pending.drop k
end

