-- ==== Sys2Proof/Laws/Decode.lean ====
section
/-! SUPPORT. The decoder and encoder on the value of a word: the fields as quotients and remainders, and one equation
for the whole decoder, so that later proofs never open a bit slice. -/

namespace Sys2Proof

theorem opOf_toNat (w : Word) : (opOf w).toNat = w.toNat % 16 := by
  simp [opOf, BitVec.extractLsb'_toNat]

theorem maskOf_toNat (w : Word) : (maskOf w).toNat = w.toNat / 16 % 1024 := by
  simp [maskOf, BitVec.extractLsb'_toNat, Nat.shiftRight_eq_div_pow]

theorem upperBits_zero (w : Word) : w.extractLsb' 4 12 = 0 ↔ w.toNat / 16 = 0 := by
  rw [← BitVec.toNat_inj]
  simp only [BitVec.extractLsb'_toNat, Nat.shiftRight_eq_div_pow, BitVec.toNat_ofNat, BitVec.ofNat_eq_ofNat]
  have := w.isLt
  omega

theorem topBits_zero (w : Word) : w.extractLsb' 14 2 = 0 ↔ w.toNat / 16384 = 0 := by
  rw [← BitVec.toNat_inj]
  simp only [BitVec.extractLsb'_toNat, Nat.shiftRight_eq_div_pow, BitVec.toNat_ofNat, BitVec.ofNat_eq_ofNat]
  have := w.isLt
  omega

/-- The whole decoder on the value of the word. -/
theorem decode_eq (w : Word) : decode w =
    match w.toNat % 16 with
    | 1 => if w.toNat / 16 = 0 then .ok .crcCompute else .error .reservedBitsC0
    | 2 => if w.toNat / 16 = 0 then .ok .crcCheck else .error .reservedBitsC0
    | 3 => if w.toNat / 16384 = 0 then .ok (.encodeIblock (maskOf w)) else .error .reservedBitsCM
    | 4 => if w.toNat / 16 = 0 then .ok .encodeWtxAck else .error .reservedBitsC0
    | 5 => if w.toNat / 16 = 0 then .ok .classify else .error .reservedBitsC0
    | 6 => if w.toNat / 16 = 0 then .ok .validate else .error .reservedBitsC0
    | 7 => if w.toNat / 16384 = 0 then .ok (.decodeIblock (maskOf w)) else .error .reservedBitsCM
    | _ => .error .reservedOperation := by
  simp only [decode, decodeC0, decodeCM, opOf_toNat, upperBits_zero, topBits_zero] <;> rfl

/-- A format-CM word's value (R39, R45). -/
theorem encodeCM_toNat (op : Word) (m : Mask) (h : op.toNat < 16) :
    (encodeCM op m).toNat = 16 * m.toNat + op.toNat := by
  have hsum : encodeCM op m = (m.setWidth 16 <<< 4) + op := by
    rw [BitVec.add_eq_or_of_and_eq_zero, encodeCM]
    ext i hi
    simp only [BitVec.getElem_and, BitVec.getElem_shiftLeft, BitVec.getElem_setWidth, BitVec.getElem_zero]
    by_cases h4 : i < 4
    · simp [h4]
    · have : op[i] = false := by
        rw [BitVec.getElem_eq_testBit_toNat]
        exact Nat.testBit_lt_two_pow (Nat.lt_of_lt_of_le h
          (Nat.pow_le_pow_right (n := 2) (by decide) (show 4 ≤ i by omega)))
      simp [this]
  rw [hsum]
  have := m.isLt
  simp only [BitVec.toNat_add, BitVec.toNat_shiftLeft, BitVec.toNat_setWidth, Nat.shiftLeft_eq]
  omega

end Sys2Proof
end

