-- ==== Sys2Proof/Laws/State.lean ====
section
/-! SUPPORT. One lemma per field of State and update of the shared operations, so that no later proof unfolds a record
update. -/

namespace Sys2Proof.Machine

variable (s : State) (v : BitVec 1) (r : ResultRecord) (o : Operands) (rest : List HostEvent) (w : Word)

@[simp] theorem writeSeq_seq : (writeSeq v s).seq = v := rfl
@[simp] theorem writeSeq_config : (writeSeq v s).config = s.config := rfl
@[simp] theorem writeSeq_pending : (writeSeq v s).pending = s.pending := rfl
@[simp] theorem writeSeq_operands : (writeSeq v s).operands = s.operands := rfl
@[simp] theorem writeSeq_result : (writeSeq v s).result = s.result := rfl
@[simp] theorem readSeq_eq : readSeq s = s.seq := rfl

@[simp] theorem setResult_seq : (setResult r s).seq = s.seq := rfl
@[simp] theorem setResult_config : (setResult r s).config = s.config := rfl
@[simp] theorem setResult_pending : (setResult r s).pending = s.pending := rfl
@[simp] theorem setResult_operands : (setResult r s).operands = s.operands := rfl
@[simp] theorem setResult_result : (setResult r s).result = some r := rfl

@[simp] theorem takePorts_seq : (takePorts o rest s).seq = s.seq := rfl
@[simp] theorem takePorts_config : (takePorts o rest s).config = s.config := rfl
@[simp] theorem takePorts_pending : (takePorts o rest s).pending = rest := rfl
@[simp] theorem takePorts_operands : (takePorts o rest s).operands = o := rfl
@[simp] theorem takePorts_result : (takePorts o rest s).result = none := rfl

@[simp] theorem applyReset_seq : (applyReset s).seq = 1 := rfl
@[simp] theorem applyReset_config : (applyReset s).config = s.config := rfl
@[simp] theorem applyReset_pending : (applyReset s).pending = s.pending := rfl
@[simp] theorem applyReset_operands : (applyReset s).operands = s.operands := rfl
@[simp] theorem applyReset_result : (applyReset s).result = s.result := rfl

@[simp] theorem presentWord_seq : (presentWord w s).seq = s.seq := rfl
@[simp] theorem presentWord_config : (presentWord w s).config = s.config := rfl
@[simp] theorem presentWord_pending :
    (presentWord w s).pending = .command { word := w, operands := s.operands } :: s.pending := rfl
@[simp] theorem presentWord_operands : (presentWord w s).operands = s.operands := rfl
@[simp] theorem presentWord_result : (presentWord w s).result = s.result := rfl

end Sys2Proof.Machine
end

