-- ==== Sys2Proof/Laws/Ops.lean ====
section
/-! SUPPORT. One lemma for each shared operation that says once what it can do: the port reads and their refusals, the
return of a result, the CRC fold, and the two directions of one frame field. -/

namespace Sys2Proof.Machine

/-! ## The ports -/

theorem withSpan_admitted {s : State} {k : Span → Answer} (h : spanAdmitted s.operands.span = true) :
    withSpan s k = k s.operands.span := by
  simp only [withSpan, h, if_true]

theorem withSpan_refused {s : State} {k : Span → Answer} (h : spanAdmitted s.operands.span = false) :
    withSpan s k = .refused .spanTooLong := by
  simp [withSpan, h]

/-- All `withSpan` can do: hand over an admitted span, or refuse. -/
theorem withSpan_cases (s : State) (k : Span → Answer) :
    (spanAdmitted s.operands.span = true ∧ withSpan s k = k s.operands.span) ∨
      (spanAdmitted s.operands.span = false ∧ withSpan s k = .refused .spanTooLong) := by
  cases h : spanAdmitted s.operands.span with
  | true => exact .inl ⟨rfl, withSpan_admitted h⟩
  | false => exact .inr ⟨rfl, withSpan_refused h⟩

theorem withSpan_next {s t : State} {k : Span → Answer} (h : withSpan s k = .next t) :
    spanAdmitted s.operands.span = true ∧ k s.operands.span = .next t := by
  obtain ⟨ha, he⟩ | ⟨-, he⟩ := withSpan_cases s k
  · exact ⟨ha, he ▸ h⟩
  · rw [he] at h; cases h

theorem withDescriptor_admitted {s : State} {k : Descriptor → Answer}
    (h : descriptorAdmitted s.operands.descriptor = true) : withDescriptor s k = k s.operands.descriptor := by
  simp only [withDescriptor, h, if_true]

theorem withDescriptor_refused {s : State} {k : Descriptor → Answer}
    (h : descriptorAdmitted s.operands.descriptor = false) :
    withDescriptor s k = .refused .payloadLengthMismatch := by
  simp [withDescriptor, h]

/-- All `withDescriptor` can do: hand over an admitted descriptor, or refuse. -/
theorem withDescriptor_cases (s : State) (k : Descriptor → Answer) :
    (descriptorAdmitted s.operands.descriptor = true ∧ withDescriptor s k = k s.operands.descriptor) ∨
      (descriptorAdmitted s.operands.descriptor = false ∧
        withDescriptor s k = .refused .payloadLengthMismatch) := by
  cases h : descriptorAdmitted s.operands.descriptor with
  | true => exact .inl ⟨rfl, withDescriptor_admitted h⟩
  | false => exact .inr ⟨rfl, withDescriptor_refused h⟩

theorem withDescriptor_next {s t : State} {k : Descriptor → Answer} (h : withDescriptor s k = .next t) :
    descriptorAdmitted s.operands.descriptor = true ∧ k s.operands.descriptor = .next t := by
  obtain ⟨ha, he⟩ | ⟨-, he⟩ := withDescriptor_cases s k
  · exact ⟨ha, he ▸ h⟩
  · rw [he] at h; cases h

theorem returnResult_next {r : ResultRecord} {s t : State} :
    returnResult r s = .next t ↔ t = setResult r s := by
  simp only [returnResult, Host.Outcome.next.injEq]
  exact eq_comm

theorem raiseError_next {c : ResCode} {s t : State} :
    raiseError c s = .next t ↔ t = setResult (errorRecord c) s := returnResult_next

/-- An admitted payload has the declared length, and the field has it too where the payload is absent (R18, R55). -/
theorem descriptorAdmitted_iff (d : Descriptor) :
    descriptorAdmitted d = true ↔ ∀ p, d.payload = some p → p.length = d.lc.toNat := by
  unfold descriptorAdmitted
  cases d.payload <;> simp

/-! ## The CRC -/

theorem crcFrom_append (acc : Word) (s t : Span) : crcFrom acc (s ++ t) = crcFrom (crcFrom acc s) t :=
  List.foldl_append

theorem crc16_append (s t : Span) : crc16 (s ++ t) = crcFrom (crc16 s) t := crcFrom_append _ _ _

@[simp] theorem crcBytes_length (c : Word) : (crcBytes c).length = 2 := rfl

@[simp] theorem zeros_length (n : Nat) : (zeros n).length = n := List.length_replicate

/-- Splitting off two CRC bytes gives back the CRC they carry (R26). -/
theorem crcWord_bytes (c : Word) : crcWord (lowByte c) (highByte c) = c := by
  ext i hi
  simp only [crcWord, lowByte, highByte, BitVec.getElem_or, BitVec.getElem_shiftLeft, BitVec.getElem_setWidth,
    BitVec.getLsbD_extractLsb']
  by_cases h : i < 8
  · simp [h, BitVec.getLsbD_eq_getElem hi]
  · simp [h, show i - 8 < 8 by omega, show 8 + (i - 8) = i by omega, BitVec.getLsbD_eq_getElem hi]

/-! ## One frame field -/

theorem emit_length (mask : Mask) (f : Field) (bytes : Span) :
    (emit mask f bytes).length = if selects mask f then bytes.length else 0 := by
  unfold emit; split <;> rfl

/-- Splitting a one-byte field off a frame that emitted it gives the byte back and the rest untouched. -/
theorem splitByte_emit (mask : Mask) (f : Field) (b : Byte) (rest : Span) :
    splitByte mask f (emit mask f [b] ++ rest) = (if selects mask f then some b else none, rest) := by
  unfold splitByte emit; split <;> rfl

theorem splitPayload_emit (mask : Mask) (p rest : Span) :
    splitPayload mask p.length (emit mask .payload p ++ rest) =
      (if selects mask .payload then some p else none, rest) := by
  unfold splitPayload emit; split <;> simp

theorem splitCrc_emit (mask : Mask) (c : Word) :
    splitCrc mask (emit mask .crc (crcBytes c)) = if selects mask .crc then some c else none := by
  unfold splitCrc emit; split
  · simp only [crcBytes, crcWord_bytes]
  · rfl

end Sys2Proof.Machine
end

