-- ==== Sys2Proof/Laws/Meanings.lean ====
section
/-! SUPPORT. One inversion lemma per meaning: the whole of what `exec` can do when it answers a next state. Later
proofs take these apart and unfold no meaning. -/

namespace Sys2Proof.Machine

variable {s t : State} {mask : Mask}

/-- The shape of the five operations over a span. -/
theorem withSpan_record_next {f : Span → ResultRecord} :
    (withSpan s fun span => returnResult (f span) s) = .next t ↔
      spanAdmitted s.operands.span = true ∧ t = setResult (f s.operands.span) s := by
  constructor
  · intro h
    obtain ⟨ha, hk⟩ := withSpan_next h
    exact ⟨ha, returnResult_next.mp hk⟩
  · rintro ⟨ha, rfl⟩
    rw [withSpan_admitted ha, returnResult]

theorem exec_crcCompute_next : exec .crcCompute s = .next t ↔
    spanAdmitted s.operands.span = true ∧ t = setResult (crcComputeRecord s.operands.span) s :=
  withSpan_record_next

theorem exec_crcCheck_next : exec .crcCheck s = .next t ↔
    spanAdmitted s.operands.span = true ∧ t = setResult (crcCheckRecord s.operands.span) s :=
  withSpan_record_next

theorem exec_classify_next : exec .classify s = .next t ↔
    spanAdmitted s.operands.span = true ∧ t = setResult (classifyRecord s.operands.span) s :=
  withSpan_record_next

theorem exec_validate_next : exec .validate s = .next t ↔
    spanAdmitted s.operands.span = true ∧ t = setResult (validateRecord s.operands.span) s :=
  withSpan_record_next

theorem exec_decodeIblock_next : exec (.decodeIblock mask) s = .next t ↔
    spanAdmitted s.operands.span = true ∧ t = setResult (decodeRecord mask s.operands.span) s :=
  withSpan_record_next

theorem exec_encodeWtxAck_next : exec .encodeWtxAck s = .next t ↔
    t = setResult { res := .ok, frame := some (wtxAckFrame s.operands.fwt) } s :=
  returnResult_next

/-- The state an ENCODE_IBLOCK leaves when both lengths pass. -/
def encodedState (mask : Mask) (s : State) : State :=
  setResult
    { res := .ok
      frame := some (encodeFrame s.config mask (nextSeq mask s.seq) s.operands.descriptor s.operands.did) }
    (writeSeq (nextSeq mask s.seq) s)

/-- A descriptor within both length caps (R59). -/
def lengthsPass (mask : Mask) (d : Descriptor) : Prop :=
  d.lc.toNat ≤ maxPayload ∧ flen mask d.lc.toNat ≤ maxFrame

/-- ENCODE_IBLOCK answers a next state in two ways: a length error, or the emitted frame. -/
theorem exec_encodeIblock_next : exec (.encodeIblock mask) s = .next t ↔
    descriptorAdmitted s.operands.descriptor = true ∧
      ((¬ lengthsPass mask s.operands.descriptor ∧ t = setResult (errorRecord .invalidLength) s) ∨
        (lengthsPass mask s.operands.descriptor ∧ t = encodedState mask s)) := by
  unfold lengthsPass
  obtain ⟨ha, he⟩ | ⟨ha, he⟩ := withDescriptor_cases s fun d =>
      if maxPayload < d.lc.toNat then raiseError .invalidLength s
      else if maxFrame < flen mask d.lc.toNat then raiseError .invalidLength s
      else returnResult
        { res := .ok
          frame := some (encodeFrame s.config mask (nextSeq mask (readSeq s)) d s.operands.did) }
        (writeSeq (nextSeq mask (readSeq s)) s)
  all_goals
    simp only [exec, execEncodeIblock]
    rw [he, ha]
  · simp only [true_and]
    split
    · rw [raiseError_next]
      constructor
      · exact fun h => .inl ⟨by omega, h⟩
      · rintro (⟨-, h⟩ | ⟨⟨h, -⟩, -⟩)
        · exact h
        · omega
    · split
      · rw [raiseError_next]
        constructor
        · exact fun h => .inl ⟨by omega, h⟩
        · rintro (⟨-, h⟩ | ⟨⟨-, h⟩, -⟩)
          · exact h
          · omega
      · rw [returnResult_next]
        constructor
        · exact fun h => .inr ⟨by omega, h⟩
        · rintro (⟨h, -⟩ | ⟨-, h⟩)
          · omega
          · exact h
  · simp

/-- What each operation answers when its named operands are not admitted (R82). -/
def boundaryRefusal (i : Instr) : Refusal :=
  match i with
  | .encodeIblock _ => .payloadLengthMismatch
  | .crcCompute => .spanTooLong
  | .crcCheck => .spanTooLong
  | .encodeWtxAck => .spanTooLong
  | .classify => .spanTooLong
  | .validate => .spanTooLong
  | .decodeIblock _ => .spanTooLong

theorem exec_refused {i : Instr} (h : operandsAdmitted i s.operands = false) :
    exec i s = .refused (boundaryRefusal i) := by
  cases i <;> simp only [operandsAdmitted, Bool.true_eq_false] at h <;>
    simp only [exec, execCrcCompute, execCrcCheck, execEncodeIblock, execClassify, execValidate, execDecodeIblock,
      withSpan_refused, withDescriptor_refused, h, boundaryRefusal]

/-- The record of each operation over a span. -/
def spanRecord (i : Instr) (span : Span) : ResultRecord :=
  match i with
  | .crcCompute => crcComputeRecord span
  | .crcCheck => crcCheckRecord span
  | .classify => classifyRecord span
  | .validate => validateRecord span
  | .decodeIblock mask => decodeRecord mask span
  | .encodeIblock _ => errorRecord .invalidLength
  | .encodeWtxAck => errorRecord .invalidLength

/-- All the ways an operation can answer a next state: a record over its span, an acknowledgement, a length error, or
an emitted frame. -/
theorem exec_next_cases {i : Instr} (h : exec i s = .next t) :
    ((i = .crcCompute ∨ i = .crcCheck ∨ i = .classify ∨ i = .validate ∨ ∃ mask, i = .decodeIblock mask) ∧
        spanAdmitted s.operands.span = true ∧ t = setResult (spanRecord i s.operands.span) s) ∨
      (i = .encodeWtxAck ∧ t = setResult { res := .ok, frame := some (wtxAckFrame s.operands.fwt) } s) ∨
      (∃ mask, i = .encodeIblock mask ∧ descriptorAdmitted s.operands.descriptor = true ∧
        ((¬ lengthsPass mask s.operands.descriptor ∧ t = setResult (errorRecord .invalidLength) s) ∨
          (lengthsPass mask s.operands.descriptor ∧ t = encodedState mask s))) := by
  cases i with
  | crcCompute => exact .inl ⟨by simp, exec_crcCompute_next.mp h⟩
  | crcCheck => exact .inl ⟨by simp, exec_crcCheck_next.mp h⟩
  | classify => exact .inl ⟨by simp, exec_classify_next.mp h⟩
  | validate => exact .inl ⟨by simp, exec_validate_next.mp h⟩
  | decodeIblock mask => exact .inl ⟨by simp, exec_decodeIblock_next.mp h⟩
  | encodeWtxAck => exact .inr (.inl ⟨rfl, exec_encodeWtxAck_next.mp h⟩)
  | encodeIblock mask => exact .inr (.inr ⟨mask, rfl, exec_encodeIblock_next.mp h⟩)

end Sys2Proof.Machine
end

