-- ==== Sys2Proof/Laws/PerInstr.lean ====
section
/-! SUPPORT. Statements made for every operation, one lemma per constructor. -/

namespace Sys2Proof.Laws.TableRow

/-- The match of an operation's row in the table of R40. -/
def rowMatch (i : Instr) : Word :=
  match i with
  | .crcCompute => 0x0001
  | .crcCheck => 0x0002
  | .encodeIblock _ => 0x0003
  | .encodeWtxAck => 0x0004
  | .classify => 0x0005
  | .validate => 0x0006
  | .decodeIblock _ => 0x0007

/-- The mask of an operation's row in the table of R40. -/
def rowMask (i : Instr) : Word :=
  match i with
  | .crcCompute => 0xFFFF
  | .crcCheck => 0xFFFF
  | .encodeIblock _ => 0xC00F
  | .encodeWtxAck => 0xFFFF
  | .classify => 0xFFFF
  | .validate => 0xFFFF
  | .decodeIblock _ => 0xC00F

/-- An operation's word matches its own row: `CMD AND mask = match` (R40). -/
def Statement (i : Instr) : Prop := encode i &&& rowMask i = rowMatch i

theorem crcCompute : Statement .crcCompute := rfl

theorem crcCheck : Statement .crcCheck := rfl

/-- A format-CM word under the row mask 0xC00F is its operation code: the mask field stands in bits 13 to 4 only. -/
theorem encodeCM_row (op : Word) (m : Mask) (hop : op &&& 0xC00F = op) : encodeCM op m &&& 0xC00F = op := by
  have hm : (m.setWidth 16 <<< 4) &&& 0xC00F = 0 := by
    ext i hi
    have hbits : ∀ j : Fin 16, (0xC00F : Word).getLsbD j = (decide (14 ≤ j.val) || decide (j.val < 4)) := by decide
    have hrow : (0xC00F : Word)[i] = (decide (14 ≤ i) || decide (i < 4)) := by
      rw [← BitVec.getLsbD_eq_getElem hi]
      exact hbits ⟨i, hi⟩
    simp only [BitVec.getElem_and, BitVec.getElem_shiftLeft, BitVec.getElem_setWidth, hrow]
    by_cases h4 : i < 4
    · simp [h4]
    · by_cases h14 : 14 ≤ i
      · simp [BitVec.getLsbD_of_ge m (i - 4) (by omega)]
      · simp [h4, h14]
  have hor : ∀ a b r : Word, (a ||| b) &&& r = (a &&& r) ||| (b &&& r) := by
    intro a b r
    ext i hi
    simp only [BitVec.getElem_and, BitVec.getElem_or, Bool.and_or_distrib_right]
  rw [encodeCM, hor, hm, hop]
  exact BitVec.zero_or

theorem encodeIblock (mask : Mask) : Statement (.encodeIblock mask) := encodeCM_row _ _ (by decide)

theorem encodeWtxAck : Statement .encodeWtxAck := rfl

theorem classify : Statement .classify := rfl

theorem validate : Statement .validate := rfl

theorem decodeIblock (mask : Mask) : Statement (.decodeIblock mask) := encodeCM_row _ _ (by decide)

end Sys2Proof.Laws.TableRow
end

