-- ==== Sys2Proof/Laws/Runs.lean ====
section
/-! SUPPORT. What one step can do, said once, and the small lemmas of runs, exchanged records and the host's order.
Later proofs take these and unfold neither `step` nor `Host.Core.run`. -/

namespace Sys2Proof.Machine

variable {s t u : State} {k : Nat}

/-- All the ways a step can answer a next state: idle, reset, an illegal word, or one operation. -/
theorem step_next_cases (h : step s = .next t) :
    (s.pending = [] ∧ t = takePorts Operands.idle [] s) ∨
    (∃ rest, s.pending = .reset :: rest ∧ t = applyReset (takePorts Operands.idle rest s)) ∨
    (∃ c rest why, s.pending = .command c :: rest ∧ decode c.word = .error why ∧
      t = setResult (errorRecord .illegalCommand) (takePorts c.operands rest s)) ∨
    (∃ c rest i, s.pending = .command c :: rest ∧ decode c.word = .ok i ∧
      exec i (takePorts c.operands rest s) = .next t) := by
  unfold step at h
  split at h
  · cases h; exact .inl ⟨‹_›, rfl⟩
  · next e rest hp =>
    cases e with
    | reset => cases h; exact .inr (.inl ⟨rest, hp, rfl⟩)
    | concurrent c d more => cases h
    | command c =>
      simp only [takeEvent, commandStep, issueWord] at h
      split at h
      · exact .inr (.inr (.inr ⟨c, rest, _, hp, ‹_›, h⟩))
      · cases h; exact .inr (.inr (.inl ⟨c, rest, _, hp, ‹_›, rfl⟩))

/-- No operation touches the host's events. -/
theorem exec_pending {i : Instr} (h : exec i s = .next t) : t.pending = s.pending := by
  obtain ⟨-, -, rfl⟩ | ⟨-, rfl⟩ | ⟨mask, -, -, ⟨-, rfl⟩ | ⟨-, rfl⟩⟩ := exec_next_cases h <;> rfl

/-- Every operation that answers a next state returns a record. -/
theorem exec_result {i : Instr} (h : exec i s = .next t) : ∃ r, t.result = some r := by
  obtain ⟨-, -, rfl⟩ | ⟨-, rfl⟩ | ⟨mask, -, -, ⟨-, rfl⟩ | ⟨-, rfl⟩⟩ := exec_next_cases h <;> exact ⟨_, rfl⟩

/-- A step takes the oldest host event and no other. -/
theorem step_pending (h : step s = .next t) : t.pending = s.pending.tail := by
  obtain ⟨hp, rfl⟩ | ⟨rest, hp, rfl⟩ | ⟨c, rest, why, hp, -, rfl⟩ | ⟨c, rest, i, hp, -, he⟩ := step_next_cases h
  · rw [hp]; rfl
  · rw [hp]; rfl
  · rw [hp]; rfl
  · rw [hp, exec_pending he]; rfl

theorem run_zero : Host.Core.run core 0 s = .next u ↔ s = u := by
  change (Host.Outcome.next s : Answer) = .next u ↔ _
  rw [Host.Outcome.next.injEq]

/-- A run of `k + 1` steps is a step and a run of `k`. -/
theorem run_succ : Host.Core.run core (k + 1) s = .next u ↔
    ∃ t, step s = .next t ∧ Host.Core.run core k t = .next u := by
  cases hs : step s <;> have hc : core.step s = _ := hs <;> simp [Host.Core.run, hc]

@[simp] theorem exchanges_zero : exchanges 0 s = [] := rfl

theorem exchanges_succ (h : step s = .next t) :
    exchanges (k + 1) s = (exchange s t).toList ++ exchanges k t := by rw [exchanges, h]

theorem recordsReturned_succ (h : step s = .next t) :
    recordsReturned (k + 1) s = t.result.toList ++ recordsReturned k t := by rw [recordsReturned, h]

/-- What a step exchanged with the host. -/
theorem exchange_eq_some {c : Command} {r : ResultRecord} :
    exchange s t = some (c, r) ↔ (∃ rest, s.pending = .command c :: rest) ∧ t.result = some r := by
  unfold exchange
  split
  · next hp hr => simp [hp, hr]
  · next h =>
    simp only [reduceCtorEq, false_iff]
    rintro ⟨⟨rest, hp⟩, hr⟩
    exact h _ _ _ hp hr

/-- A longer order contains the shorter. -/
theorem HostKeepsOrder.mono {mayBe : Span → Prop} {j : Nat} (h : HostKeepsOrder mayBe k s) (hj : j ≤ k) :
    HostKeepsOrder mayBe j s where
  misses_none := h.misses_none
  classifies_first i c hi := h.classifies_first i c (hi.trans hj)
  validates_no_request i c r hi := h.validates_no_request i c r (hi.trans hj)
  acknowledges_requests i c hi := h.acknowledges_requests i c (hi.trans hj)

/-- CLASSIFY's sub-type is WTX exactly for a header whose top four bits are ones (R64, R67). -/
theorem subType_wtx (h : Byte) : subType h = some .wtx ↔ h.toNat / 16 = 15 := by revert h; decide +kernel

end Sys2Proof.Machine
end

