-- ==== Sys2Proof/Tests/Slice0.lean ====
section
/-! SUPPORT. The model's own tests. Expected results come from spec/95_test_vectors.md (V-*) and 30_encoding.md R40; the
witnesses show, for each statement with hypotheses, a state and operands that meet them together. -/

namespace Sys2Proof.Tests

open Sys2Proof.Machine

/-! ## Small helpers -/

/-- The next state of an answer, for tests to compare. -/
def nextState (a : Answer) : Option State :=
  match a with
  | .next t => some t
  | .fault _ => none
  | .refused _ => none

/-- The record and `SEQ` after one command word from a given `SEQ`. -/
def issue (w : Word) (o : Operands) (seq : BitVec 1) : Option (ResultRecord × BitVec 1) :=
  (nextState (step { State.reset with seq := seq, pending := [.command { word := w, operands := o }] })).bind
    fun t => t.result.map fun r => (r, t.seq)

/-- Operands with a span. -/
def onSpan (s : Span) : Operands := { Operands.idle with span := s }

/-- Operands with a descriptor and a device-id. -/
def onDescriptor (cla ins p1 p2 lc : Byte) (payload : Option Span) (le : Option Byte) (did : Byte) : Operands :=
  { Operands.idle with descriptor := { cla, ins, p1, p2, lc, payload, le }, did := did }

/-- The reset state with operands at the ports. -/
def ports (o : Operands) : State := { State.reset with operands := o }

/-- The reset state with host events to come. -/
def events (es : List HostEvent) : State := { State.reset with pending := es }

/-- A command event. -/
def send (w : Word) (o : Operands) : HostEvent := .command { word := w, operands := o }

/-! ## Decoding: words written out bit by bit from the patterns of R40 -/

theorem test_decode_crcCompute : decode 0b0000000000000001 = .ok .crcCompute := by decide
theorem test_decode_crcCheck : decode 0b0000000000000010 = .ok .crcCheck := by decide
theorem test_decode_encodeIblock : decode 0b0010111111010011 = .ok (.encodeIblock 0x2FD) := by decide
theorem test_decode_encodeWtxAck : decode 0b0000000000000100 = .ok .encodeWtxAck := by decide
theorem test_decode_classify : decode 0b0000000000000101 = .ok .classify := by decide
theorem test_decode_validate : decode 0b0000000000000110 = .ok .validate := by decide
theorem test_decode_decodeIblock : decode 0b0011001111010111 = .ok (.decodeIblock 0x33D) := by decide

/-- Section 2.7: the illegal words, with the reason each is one. -/
theorem test_decode_illegal :
    decode 0x0000 = .error .reservedOperation ∧ decode 0x0008 = .error .reservedOperation ∧
    decode 0x000F = .error .reservedOperation ∧ decode 0x0011 = .error .reservedBitsC0 ∧
    decode 0x1001 = .error .reservedBitsC0 ∧ decode 0x8006 = .error .reservedBitsC0 ∧
    decode 0x4003 = .error .reservedBitsCM ∧ decode 0x8007 = .error .reservedBitsCM ∧
    decode 0x0014 = .error .reservedBitsC0 := by decide

/-- The table word is the command word, and `step` runs it first after reset. -/
theorem test_decode_table_word : decodeTableWord 16 0x2FD3 = some (.encodeIblock 0x2FD) ∧
    decodeTableWord 16 0x6FD3 = none ∧
    (nextState (step (State.reset.withFetchWord 16 0x0005))).map State.result =
      some (some { res := .frameFormat }) := by decide

/-! ## WellFormed: an ill-formed term for each check, which the check refuses -/

theorem test_wf_span : spanAdmitted (zeros 255) = true ∧ spanAdmitted (zeros 256) = false := by decide +kernel

theorem test_wf_descriptor :
    descriptorAdmitted (onDescriptor 0 0 0 0 2 (some [1, 2]) none 0).descriptor = true ∧
    descriptorAdmitted (onDescriptor 0 0 0 0 2 (some [1]) none 0).descriptor = false := by decide

theorem test_wf_operands :
    operandsAdmitted .validate (onSpan (zeros 256)) = false ∧
    operandsAdmitted .encodeWtxAck (onSpan (zeros 256)) = true ∧
    operandsAdmitted (.encodeIblock 0) (onDescriptor 0 0 0 0 2 (some [1]) none 0) = false := by decide +kernel

/-! ## One step of each operation -/

/-- V-CRC-4 and V-CRC-10. -/
theorem test_crcCompute :
    issue 0x0001 (onSpan [0x12, 0x34]) 1 = some ({ res := .ok, crc := some 0xCF26 }, 1) ∧
    issue 0x0001 (onSpan [0x02, 0x00, 0xA4, 0x04, 0x00, 0x07, 0xD2, 0x76, 0x00, 0x00, 0x85, 0x01, 0x01, 0x00]) 0 =
      some ({ res := .ok, crc := some 0xC035 }, 0) := by decide

/-- V-CRC-12, V-CRC-16 and V-CRC-18. -/
theorem test_crcCheck :
    issue 0x0002 (onSpan [0x12, 0x34, 0x26, 0xCF]) 1 = some ({ res := .ok, crc := some 0x0000 }, 1) ∧
    issue 0x0002 (onSpan [0x12, 0x34, 0x26, 0xCE]) 1 = some ({ res := .crcMismatch, crc := some 0x1189 }, 1) ∧
    issue 0x0002 (onSpan []) 1 = some ({ res := .crcMismatch, crc := some 0x6363 }, 1) := by decide

/-- V-ENC-1 and V-ENC-13. -/
theorem test_encodeIblock :
    issue 0x3FD3 (onDescriptor 0x00 0xA4 0x04 0x00 0x07 (some [0xD2, 0x76, 0x00, 0x00, 0x85, 0x01, 0x01]) (some 0x00) 0)
        1 =
      some
        ({ res := .ok
           frame := some
             [0x02, 0x00, 0xA4, 0x04, 0x00, 0x07, 0xD2, 0x76, 0x00, 0x00, 0x85, 0x01, 0x01, 0x00, 0x35, 0xC0] },
          0) ∧
    issue 0x2FC3 (onDescriptor 0x00 0xD6 0x00 0x00 0x01 (some [0x01]) none 0) 1 =
      some ({ res := .ok, frame := some [0x00, 0xD6, 0x00, 0x00, 0x01, 0x01, 0x4D, 0xFB] }, 1) := by decide

/-- V-ENC-9 (length error), and V-ENC-14 (the header's device-id bit under the other parameter). -/
theorem test_encodeIblock_corners :
    issue 0x27D3 (onDescriptor 0x00 0x20 0x00 0x01 0xF7 none none 0) 1 = some ({ res := .invalidLength }, 1) ∧
    (nextState (exec (.encodeIblock 0x203) { State.reset with config := { hdrDidBit := true } })).bind State.result =
      some { res := .ok, frame := some [0x0A, 0x00, 0xD0, 0xE3] } := by decide

/-- V-WTX-1 and V-WTX-4. -/
theorem test_encodeWtxAck :
    issue 0x0004 { Operands.idle with fwt := 0x01 } 1 =
      some ({ res := .ok, frame := some [0xF2, 0x01, 0x91, 0x40] }, 1) ∧
    issue 0x0004 { Operands.idle with fwt := 0xFF } 0 =
      some ({ res := .ok, frame := some [0xF2, 0xFF, 0x60, 0x5E] }, 0) := by decide

/-- V-CLS-2, V-CLS-4 and V-CLS-8. -/
theorem test_classify :
    issue 0x0005 (onSpan [0xF2, 0x01, 0x91, 0x41]) 1 =
      some
        ({ res := .ok, hdr := some 0xF2, kind := some .supervisory, sub := some .wtx, fwt := some 0x01
           crc4Ok := some false },
          1) ∧
    issue 0x0005 (onSpan [0x02, 0x90, 0x00, 0xF1, 0x09]) 1 =
      some
        ({ res := .ok, hdr := some 0x02, kind := some .information, blk := some 0, crc4Ok := some false }, 1) ∧
    issue 0x0005 (onSpan [0xD2, 0x00]) 1 =
      some ({ res := .ok, hdr := some 0xD2, kind := some .supervisory, sub := some .other }, 1) := by decide

/-- V-CLS-6, V-CLS-7, V-CLS-9 and V-CLS-11. -/
theorem test_classify_corners :
    issue 0x0005 (onSpan [0xA3]) 1 =
      some ({ res := .ok, hdr := some 0xA3, kind := some .receiveReady, blk := some 1 }, 1) ∧
    issue 0x0005 (onSpan [0x42, 0x00, 0x00, 0x00]) 1 =
      some ({ res := .ok, hdr := some 0x42, kind := some .reserved, crc4Ok := some false }, 1) ∧
    issue 0x0005 (onSpan [0xF2]) 1 =
      some ({ res := .ok, hdr := some 0xF2, kind := some .supervisory, sub := some .wtx }, 1) ∧
    issue 0x0005 (onSpan []) 1 = some ({ res := .frameFormat }, 1) := by decide

/-- V-DEC-2 and V-DEC-5. -/
theorem test_decodeIblock :
    issue 0x33D7 (onSpan [0x03, 0x00, 0xB0, 0x00, 0x00, 0x10, 0xD3, 0x4B]) 1 =
      some
        ({ res := .crcMismatch, dHdr := some 0x03, dCla := some 0x00, dIns := some 0xB0, dP1 := some 0x00
           dP2 := some 0x00, dLe := some 0x10, dCrc := some 0x4BD3 },
          1) ∧
    issue 0x2FD7 (onSpan [0x02, 0x00, 0xD6, 0x00, 0x00, 0x02, 0xAA, 0xBB, 0x03, 0xEF]) 1 =
      some
        ({ res := .ok, dHdr := some 0x02, dCla := some 0x00, dIns := some 0xD6, dP1 := some 0x00, dP2 := some 0x00
           dLc := some 0x02, dPayload := some [0xAA, 0xBB], dCrc := some 0xEF03 },
          1) := by decide

/-- V-DEC-4, V-DEC-6 and V-DEC-8. -/
theorem test_decodeIblock_corners :
    issue 0x0007 (onSpan []) 1 = some ({ res := .ok }, 1) ∧
    issue 0x0007 (onSpan [0x01]) 1 = some ({ res := .frameFormat }, 1) ∧
    issue 0x2FD7 (onSpan [0x02, 0x00, 0xD6, 0x00, 0x00, 0x03, 0xAA, 0xBB, 0x03, 0xEF]) 1 =
      some ({ res := .frameFormat }, 1) ∧
    issue 0x0887 (onSpan [0x09, 0x01, 0x02, 0x03]) 1 =
      some ({ res := .ok, dIns := some 0x09, dPayload := some [0x01, 0x02, 0x03] }, 1) := by decide

/-- V-VAL-6, V-VAL-8 and V-VAL-9. -/
theorem test_validate :
    issue 0x0006 (onSpan [0x02, 0x90, 0x00, 0xF1, 0x09, 0xAA, 0xAA, 0xAA]) 1 =
      some ({ res := .ok, sw := some 0x9000, window := some .narrow, data := some [] }, 1) ∧
    issue 0x0006 (onSpan [0xF2, 0x01, 0x91, 0x40]) 1 =
      some ({ res := .chipStatus, sw := some 0xF201, window := some .full, data := some [] }, 1) ∧
    issue 0x0006 (onSpan [0x90, 0x00, 0xFD, 0x07]) 1 =
      some ({ res := .ok, sw := some 0x9000, window := some .full, data := some [] }, 1) := by decide

/-- V-VAL-7, V-VAL-10 and V-VAL-12. -/
theorem test_validate_corners :
    issue 0x0006 (onSpan ([0x02, 0x6A, 0x82, 0x93, 0x2F] ++ zeros 11)) 1 =
      some
        ({ res := .chipStatus, sw := some 0x0000, window := some .full
           data := some ([0x6A, 0x82, 0x93, 0x2F] ++ zeros 7) },
          1) ∧
    issue 0x0006 (onSpan [0x63, 0x63]) 1 = some ({ res := .crcMismatch }, 1) ∧
    issue 0x0006 (onSpan [0x02, 0x90, 0x00, 0xF1, 0x08]) 1 = some ({ res := .crcMismatch }, 1) := by decide

/-- The codes of R19 and R20. -/
theorem test_result_codes :
    [ResCode.ok, .invalidLength, .crcMismatch, .chipStatus, .illegalCommand, .frameFormat].map resBits =
      [0x0, 0x1, 0x2, 0x3, 0x4, 0x5] ∧
    [BlockKind.information, .reserved, .receiveReady, .supervisory].map kindBits = [0b00, 0b01, 0b10, 0b11] ∧
    [SubType.deselect, .other, .wtx].map subBits = [0b00, 0b01, 0b11] ∧
    [Window.full, .narrow].map windowBits = [0, 1] := by decide

/-- R45: `ENCODE_IBLOCK mask=0x2FD` assembles to 0x2FD3 and `VALIDATE` to 0x0006; a CM line without a mask and a C0 line
with one are no commands. -/
theorem test_assemble :
    (assemble { mnemonic := .encodeIblock, operands := [.mask 0x2FD] }).map Command.word = some 0x2FD3 ∧
    (assemble { mnemonic := .validate, operands := [] }).map Command.word = some 0x0006 ∧
    assemble { mnemonic := .encodeIblock, operands := [] } = none ∧
    assemble { mnemonic := .validate, operands := [.mask 0x001] } = none := by decide

/-! ## Witnesses: each statement's hypotheses, met together -/

/-- A descriptor with a two-byte payload. -/
def smallDescriptor : Operands := onDescriptor 0x00 0xD6 0x00 0x00 0x02 (some [0xAA, 0xBB]) none 0x5A

theorem witness_EncodeInvertsDecode : decode 0x33D3 = .ok (.encodeIblock 0x33D) := by decide

/-- One word for each clause of R43, at the ends of its range, and a legal word beside them. -/
theorem witness_IllegalWordsReturnIllegalCommand :
    (events [send 0x8006 Operands.idle]).pending = .command { word := 0x8006, operands := Operands.idle } :: [] ∧
    Claims.illegalWord 0x0000 ∧ Claims.illegalWord 0x0008 ∧ Claims.illegalWord 0xFFFF ∧ Claims.illegalWord 0x8006 ∧
    Claims.illegalWord 0x0011 ∧ Claims.illegalWord 0x4003 ∧ Claims.illegalWord 0x8007 ∧
    ¬ Claims.illegalWord 0x3FF3 := by
  simp [Claims.illegalWord, Claims.c0Op, Claims.cmOp, events, send]

theorem witness_StepRunsTheDecodedCommand :
    (events [send 0x33D7 Operands.idle]).pending = .command { word := 0x33D7, operands := Operands.idle } :: [] ∧
    decode 0x33D7 = .ok (.decodeIblock 0x33D) := by decide

theorem witness_OnlySeqPersists :
    (ports (onSpan [1])).seq = (ports (onSpan [2])).seq ∧ (ports (onSpan [1])).config = (ports (onSpan [2])).config ∧
    (ports (onSpan [1])).pending = (ports (onSpan [2])).pending ∧ ports (onSpan [1]) ≠ ports (onSpan [2]) := by decide

theorem witness_IdleBlockKeepsSeq : State.reset.pending = [] := rfl

/-- A header encode (program P4, step 4), an encode without a header, and an illegal word. -/
theorem witness_ResetSetsSeqToOne :
    (events [.reset]).pending = .reset :: [] ∧
    (∃ t, step (events [send 0x0013 Operands.idle]) = .next t ∧ (t.result.map (·.res)) = some .ok ∧
      decode 0x0013 = .ok (.encodeIblock 0x001)) ∧
    (∃ t, step (events [send 0x0023 Operands.idle]) = .next t ∧ t.result.isSome = true ∧
      decode 0x0023 = .ok (.encodeIblock 0x002)) ∧
    ∃ t, step (events [send 0x6FD3 Operands.idle]) = .next t ∧ t.result.isSome = true :=
  ⟨rfl, ⟨_, rfl, by decide, by decide⟩, ⟨_, rfl, by decide, by decide⟩, ⟨_, rfl, by decide⟩⟩

theorem witness_BoundaryRefusals :
    (namesSpan (.decodeIblock 0) = true ∧ 255 < (ports (onSpan (zeros 256))).operands.span.length) ∧
    (onDescriptor 0 0 0 0 0 (some [1]) none 0).descriptor.payload = some [1] ∧
    [(1 : Byte)].length ≠ (onDescriptor 0 0 0 0 0 (some [1]) none 0).descriptor.lc.toNat ∧
    (events [.concurrent ⟨0x0001, Operands.idle⟩ ⟨0x0004, Operands.idle⟩ []]).pending =
      .concurrent ⟨0x0001, Operands.idle⟩ ⟨0x0004, Operands.idle⟩ [] :: [] := by decide +kernel

theorem witness_CommandsCompleteExactlyWhenAdmitted :
    operandsAdmitted .classify (ports (onSpan (zeros 255))).operands = true ∧
    operandsAdmitted .classify (ports (onSpan (zeros 256))).operands = false := by decide +kernel

theorem witness_AdmittedSchedulesRunToTheEnd :
    ∀ e ∈ (events [send 0x0001 Operands.idle, .reset, send 0x0000 (onSpan (zeros 256))]).pending,
      eventAdmitted e = true := by decide

theorem witness_InstancesAreIndependent :
    [State.reset, events [.concurrent ⟨0, Operands.idle⟩ ⟨0, Operands.idle⟩ []]][0]? = some State.reset ∧
    (∃ t, step State.reset = .next t) ∧
    ∃ r, step (events [.concurrent ⟨0, Operands.idle⟩ ⟨0, Operands.idle⟩ []]) = .refused r :=
  ⟨rfl, ⟨_, rfl⟩, ⟨_, rfl⟩⟩

theorem witness_FrameOfEveryOperation :
    (∃ t, exec (.encodeIblock 0x0C5) (ports smallDescriptor) = .next t) ∧
    ∃ t, exec .validate (ports (onSpan [0x90, 0x00, 0xFD, 0x07])) = .next t :=
  ⟨⟨_, rfl⟩, ⟨_, rfl⟩⟩

theorem witness_SeqReachesNoOtherResult :
    touchesSeq (.encodeIblock 0x0C4) = false ∧
    ∃ t, exec (.encodeIblock 0x0C4) (ports smallDescriptor) = .next t :=
  ⟨by decide, _, rfl⟩

theorem witness_UnnamedOperandsAreIgnored :
    (agreeOnNamed .classify (onSpan [0x03]) { smallDescriptor with span := [0x03] } ∧
      ∃ t, exec .classify (ports (onSpan [0x03])) = .next t) ∧
    agreeOnNamed (.encodeIblock 0) (onDescriptor 0 0 0 0 0 (some [1]) none 0)
      { onDescriptor 0 0 0 0 0 (some [1]) none 0 with span := [0x03] } ∧
    ∃ r, exec (.encodeIblock 0) (ports (onDescriptor 0 0 0 0 0 (some [1]) none 0)) = .refused r :=
  ⟨⟨rfl, _, rfl⟩, ⟨rfl, rfl⟩, _, rfl⟩

theorem witness_CommandsAreIdempotentButHeaderEncodes :
    (touchesSeq .encodeWtxAck = false ∧ ∃ t, exec .encodeWtxAck State.reset = .next t) ∧
    ∃ t r, (0x0C5 : Mask).getLsbD 0 = true ∧ exec (.encodeIblock 0x0C5) (ports smallDescriptor) = .next t ∧
      t.result = some r ∧ r.res = .ok :=
  ⟨⟨rfl, _, rfl⟩, _, _, by decide, rfl, rfl, rfl⟩

/-- An error of each code an operation returns. -/
theorem witness_ErrorsChangeNoState :
    (∃ t r, exec .classify State.reset = .next t ∧ t.result = some r ∧ r.res = .frameFormat) ∧
    (∃ t r, exec .validate (ports (onSpan [0xF2, 0x01, 0x91, 0x40])) = .next t ∧ t.result = some r ∧
      r.res = .chipStatus) ∧
    (∃ t r, exec .crcCheck State.reset = .next t ∧ t.result = some r ∧ r.res = .crcMismatch) ∧
    (∃ t r, exec .validate State.reset = .next t ∧ t.result = some r ∧ r.res = .crcMismatch) ∧
    (∃ t r, exec (.decodeIblock 0x200) (ports (onSpan [0x00, 0x00])) = .next t ∧ t.result = some r ∧
      r.res = .crcMismatch) ∧
    ∃ t r, exec (.encodeIblock 0) (ports (onDescriptor 0 0 0 0 0xF7 none none 0)) = .next t ∧ t.result = some r ∧
      r.res = .invalidLength :=
  ⟨⟨_, _, rfl, rfl, rfl⟩, ⟨_, _, rfl, rfl, rfl⟩, ⟨_, _, rfl, rfl, rfl⟩, ⟨_, _, rfl, rfl, rfl⟩, ⟨_, _, rfl, rfl, rfl⟩,
    ⟨_, _, rfl, rfl, rfl⟩⟩

theorem witness_StepKeepsTheResultPortLegal :
    ResultPortLegal (events [send 0x0004 Operands.idle]) ∧
    ∃ t, step (events [send 0x0004 Operands.idle]) = .next t :=
  ⟨fun _ h => (by cases h), _, rfl⟩

theorem witness_OnlyTheOwnCrcLeavesZeroResidue : crc16 ([0x12, 0x34] ++ [0x26, 0xCF]) = 0 := by decide

theorem witness_CrcComputeResult : (ports (onSpan (zeros 255))).operands.span.length ≤ 255 := by decide +kernel

theorem witness_CrcCheckResult :
    (crc16 (ports (onSpan [0x63, 0x63])).operands.span = 0x0000 ∧ (ports (onSpan [0x63, 0x63])).operands.span.length ≤ 255) ∧
    crc16 (ports (onSpan (zeros 255))).operands.span ≠ 0x0000 ∧
    (ports (onSpan (zeros 255))).operands.span.length ≤ 255 := by decide +kernel

/-- The first and the last bit of V-CRC-12's span. -/
theorem witness_CrcCheckCatchesEverySingleBitError :
    crc16 [0x12, 0x34, 0x26, 0xCF] = 0x0000 ∧
    (onSpan [0x13, 0x34, 0x26, 0xCF]).span =
      List.modify [0x12, 0x34, 0x26, 0xCF] 0 (fun b : Byte => b ^^^ BitVec.twoPow 8 0) ∧
    (onSpan [0x12, 0x34, 0x26, 0x4F]).span =
      List.modify [0x12, 0x34, 0x26, 0xCF] 3 (fun b : Byte => b ^^^ BitVec.twoPow 8 7) := by decide

/-- The largest frame: all fields with 245 payload bytes, and 246 bytes without the device-id. -/
theorem witness_EncodeIblockEmitsTheSelectedFields :
    (∀ p, (onDescriptor 0 0 0 0 0xF5 (some (zeros 245)) none 0).descriptor.payload = some p → p.length = 245) ∧
    Claims.flenSum 0x3FF 245 = 255 ∧ Claims.flenSum 0x3FD 246 = 255 ∧ (0xF6 : Byte).toNat = 246 := by
  refine ⟨fun p h => ?_, by decide, by decide, by decide⟩
  cases h
  exact List.length_replicate

theorem witness_EmittedFramesHaveTheDeclaredLength :
    ∃ t r f, exec (.encodeIblock 0x2C5) (ports smallDescriptor) = .next t ∧ t.result = some r ∧ r.frame = some f :=
  ⟨_, _, _, rfl, rfl, rfl⟩

/-- A header encode, an encode without a header, and a failed one. -/
theorem witness_SeqTogglesWithEachEmittedHeader :
    (∃ t r, exec (.encodeIblock 0x0C5) (ports smallDescriptor) = .next t ∧ t.result = some r ∧ r.res = .ok) ∧
    (∃ t r, exec (.encodeIblock 0x0C4) (ports smallDescriptor) = .next t ∧ t.result = some r ∧
      (0x0C4 : Mask).getLsbD 0 = false) ∧
    ∃ t r, exec (.encodeIblock 0x001) (ports (onDescriptor 0 0 0 0 0xF7 none none 0)) = .next t ∧
      t.result = some r ∧ r.res ≠ .ok :=
  ⟨⟨_, _, rfl, rfl, rfl⟩, ⟨_, _, rfl, rfl, by decide⟩, ⟨_, _, rfl, rfl, by decide⟩⟩

/-- `LC = 247` for any mask, and the one frame of 256 bytes. -/
theorem witness_EncodeIblockLengthErrors :
    (∀ p, (onDescriptor 0 0 0 0 0xF7 none none 0).descriptor.payload = some p → p.length = 247) ∧
    246 < (0xF7 : Byte).toNat ∧ 255 < Claims.flenSum 0x3FF (0xF6 : Byte).toNat ∧ (0xF6 : Byte).toNat ≤ 246 := by
  refine ⟨fun p h => ?_, by decide, by decide, by decide⟩
  cases h

/-- Two header encodes with an acknowledgement between them: no reset, and two frames are emitted. -/
def twoEncodes : State := events [send 0x0013 Operands.idle, send 0x0004 Operands.idle, send 0x0013 Operands.idle]

theorem witness_EmittedSequenceBitsAlternate :
    Claims.noReset 3 twoEncodes ∧ iblocksEmitted 3 twoEncodes = [[0x02], [0x03]] := by
  unfold Claims.noReset
  decide

theorem witness_SeqHoldsTheLastEmittedBit :
    Claims.noReset 3 twoEncodes ∧ ∃ u, Host.Core.run core 3 twoEncodes = .next u :=
  ⟨witness_EmittedSequenceBitsAlternate.1, _, rfl⟩

/-- The first frame sent twice, then the second. -/
theorem witness_WireSeesStrictAlternation :
    Claims.noReset 3 twoEncodes ∧ SentInOrder (iblocksEmitted 3 twoEncodes) [[0x02], [0x02], [0x03]] := by
  refine ⟨witness_EmittedSequenceBitsAlternate.1, ?_⟩
  rw [witness_EmittedSequenceBitsAlternate.2]
  exact .resend _ (.send _ (.send _ .done))

theorem witness_FirstHeaderAfterResetIsTwo :
    ∃ t r, (0x0C5 : Mask).getLsbD 0 = true ∧
      exec (.encodeIblock 0x0C5) { State.reset with operands := smallDescriptor } = .next t ∧ t.result = some r ∧
      r.res = .ok :=
  ⟨_, _, by decide, rfl, rfl, rfl⟩

theorem witness_EmittedFramesPassTheCrcCheck :
    ∃ (t : State) (r : ResultRecord) (f : Span) (u : State), (0x2C5 : Mask).getLsbD 9 = true ∧ exec (.encodeIblock 0x2C5) (ports smallDescriptor) = .next t ∧
      t.result = some r ∧ r.frame = some f ∧ u.operands.span = f :=
  ⟨_, _, _, ports (onSpan _), by decide, rfl, rfl, rfl, rfl⟩

theorem witness_WtxAckEchoesAnIntactRequest :
    crc16 [0xF2, (ports { Operands.idle with fwt := 0x3B }).operands.fwt, 0x48, 0xDE] = 0x0000 := by decide

theorem witness_ClassifyReadsTheHeader :
    (ports (onSpan (zeros 255))).operands.span = 0x00 :: zeros 254 ∧ (zeros 254).length ≤ 254 := by decide +kernel

theorem witness_ClassifyRejectsAnEmptySpan : State.reset.operands.span = [] := rfl

theorem witness_AcknowledgementsClassifyAsWtx :
    ∃ (t u : State) (r : ResultRecord) (f : Span), exec .encodeWtxAck State.reset = .next t ∧ t.result = some r ∧ r.frame = some f ∧
      u.operands.span = f :=
  ⟨_, ports (onSpan _), _, _, rfl, rfl, rfl, rfl⟩

theorem witness_EncodedBlocksClassifyAsInformation :
    ∃ (t u : State) (r : ResultRecord) (f : Span), (0x2C5 : Mask).getLsbD 0 = true ∧ exec (.encodeIblock 0x2C5) (ports smallDescriptor) = .next t ∧
      t.result = some r ∧ r.frame = some f ∧ u.operands.span = f :=
  ⟨_, ports (onSpan _), _, _, by decide, rfl, rfl, rfl, rfl⟩

/-- A well-formed span with a declared payload, one whose payload takes what is left, a short one, and one whose
declared length does not fit. -/
theorem witness_DecodeIblockResult :
    Claims.wellFormedFor 0x0C1 [0x02, 0x01, 0xAA] ∧ Claims.wellFormedFor 0x080 (zeros 246) ∧
    ¬ Claims.wellFormedFor 0x080 (zeros 247) ∧ ¬ Claims.wellFormedFor 0x0C1 [0x02] ∧
    ¬ Claims.wellFormedFor 0x0C1 [0x02, 0x02, 0xAA] := by
  unfold Claims.wellFormedFor
  decide +kernel

theorem witness_DecodeIblockInvertsEncodeIblock :
    ∃ (t u : State) (r : ResultRecord) (f : Span), exec (.encodeIblock 0x3FF) (ports smallDescriptor) = .next t ∧ t.result = some r ∧
      r.frame = some f ∧ u.operands.span = f :=
  ⟨_, ports (onSpan _), _, _, rfl, rfl, rfl, rfl⟩

/-- V-VAL-9 (the shortest full window), V-VAL-6 (narrow), V-VAL-10 and V-VAL-12 (neither). -/
theorem witness_ValidateTriesBothWindows :
    ((onSpan [0x90, 0x00, 0xFD, 0x07]).span = [] ++ [0x90, 0x00, 0xFD, 0x07] ∧ crc16 [0x90, 0x00, 0xFD, 0x07] = 0x0000) ∧
    (crc16 [0x02, 0x90, 0x00, 0xF1, 0x09, 0xAA, 0xAA, 0xAA] ≠ 0x0000 ∧ crc16 [0x02, 0x90, 0x00, 0xF1, 0x09] = 0x0000) ∧
    (onSpan [0x63, 0x63]).span.length < 4 ∧
    (crc16 [0x02, 0x90, 0x00, 0xF1, 0x08] ≠ 0x0000 ∧ crc16 ([0x02, 0x90, 0x00, 0xF1, 0x08].take 5) ≠ 0x0000) := by
  decide

/-- V-VAL-5. -/
theorem witness_IntactResponsesYieldTheirData :
    (onSpan [0x03, 0x90, 0x00, 0x2D, 0x53]).span = Claims.withCrc (0x03 :: ([] ++ [0x90, 0x00])) := by decide

/-- V-VAL-7 with the least padding. -/
theorem witness_ZeroPaddingIsReadAsStatus :
    crc16 [0x02, 0x6A, 0x82, 0x93, 0x2F] = 0x0000 ∧
    (onSpan [0x02, 0x6A, 0x82, 0x93, 0x2F, 0, 0, 0, 0]).span =
      [0x02, 0x6A, 0x82, 0x93, 0x2F] ++ List.replicate 4 0x00 := by decide

theorem witness_WtxRequestsValidateAsChipStatus :
    (ports (onSpan [0xF2, 0x01, 0x91, 0x40])).operands.span = [0xF2, 0x01, 0x91, 0x40] ∧
    isWtxRequest [0xF2, 0x01, 0x91, 0x40] = true ∧ crc16 [0xF2, 0x01, 0x91, 0x40] = 0x0000 := by decide

/-- Program P2's loop body: a request classified and acknowledged, then a response classified and validated. -/
def orderlyRun : State :=
  events
    [send 0x0005 (onSpan [0xF2, 0x01, 0x91, 0x40]), send 0x0004 { Operands.idle with fwt := 0x01 },
      send 0x0005 (onSpan [0x02, 0x90, 0x00, 0xF1, 0x09]), send 0x0006 (onSpan [0x02, 0x90, 0x00, 0xF1, 0x09])]

/-- A cautious host, which holds every frame for a possible request, keeps the order in that run. -/
theorem orderlyRun_keeps_order : HostKeepsOrder (fun _ => True) 3 orderlyRun where
  misses_none _ _ := trivial
  classifies_first j c hj hc hv _ := by
    obtain ⟨u, rest, hu, hp⟩ := hc
    interval_cases j <;> cases hu <;> cases hp
    · exact absurd hv (by decide)
    · exact absurd hv (by decide)
    · exact absurd hv (by decide)
    · exact ⟨_, _, .tail _ (.tail _ (.head _)), by decide, rfl⟩
  validates_no_request j c r hj hc hv := by
    obtain ⟨u, rest, hu, hp⟩ := hc
    interval_cases j <;> cases hu <;> cases hp
    · exact absurd hv (by decide)
    · exact absurd hv (by decide)
    · exact absurd hv (by decide)
    · rintro ⟨d, hd, hw, hs⟩ ⟨-, hsub⟩
      simp only [exchanges] at hd
      rcases hd with _ | ⟨_, _ | ⟨_, _ | ⟨_, h⟩⟩⟩
      · exact absurd hs (by decide)
      · exact absurd hw (by decide)
      · exact absurd hsub (by decide)
      · cases h
  acknowledges_requests j c hj hc hv := by
    obtain ⟨u, rest, hu, hp⟩ := hc
    interval_cases j <;> cases hu <;> cases hp
    · exact absurd hv (by decide)
    · exact ⟨_, _, ⟨_, .head _, by decide, rfl⟩, ⟨rfl, rfl⟩, rfl⟩
    · exact absurd hv (by decide)
    · exact absurd hv (by decide)

/-- Both clauses: the acknowledgement after one step, the response after three; the host of the one is the host of the
other. -/
theorem witness_OrderlyHostsNeverValidateRequests :
    HostKeepsOrder (fun _ => True) 3 orderlyRun ∧
    IssuedAfter 1 orderlyRun { word := 0x0004, operands := { Operands.idle with fwt := 0x01 } } ∧
    IssuedAfter 3 orderlyRun { word := 0x0006, operands := onSpan [0x02, 0x90, 0x00, 0xF1, 0x09] } :=
  ⟨orderlyRun_keeps_order, ⟨_, _, rfl, rfl⟩, ⟨_, _, rfl, rfl⟩⟩

theorem witness_EachCommandGetsItsRecordInOrder : ∃ u, Host.Core.run core 3 orderlyRun = .next u := ⟨_, rfl⟩

end Sys2Proof.Tests
end

/-! The scope of the block (00_scope.md): what one operation changes and leaves unchanged (R11, R14, R58), and
what a step is, by the oldest host event (R11, R16, R33). -/

namespace Sys2Proof.Machine

variable {s s' t : State} {mask : Mask}

/-! ## The frame of the operations -/

theorem nextSeq_of_header (h : mask.getLsbD 0 = true) (v : BitVec 1) : nextSeq mask v = ~~~v :=
  if_pos h

theorem nextSeq_of_no_header (h : mask.getLsbD 0 = false) (v : BitVec 1) : nextSeq mask v = v :=
  if_neg (ne_true_of_eq_false h)

@[simp] theorem encodedState_seq : (encodedState mask s).seq = nextSeq mask s.seq := rfl
@[simp] theorem encodedState_config : (encodedState mask s).config = s.config := rfl
@[simp] theorem encodedState_pending : (encodedState mask s).pending = s.pending := rfl
@[simp] theorem encodedState_operands : (encodedState mask s).operands = s.operands := rfl
@[simp] theorem encodedState_result : (encodedState mask s).result =
    some { res := .ok
           frame := some (encodeFrame s.config mask (nextSeq mask s.seq) s.operands.descriptor s.operands.did) } := rfl

/-- An operation that answers only puts its record at the result port, but for an ENCODE_IBLOCK within both length
caps (R10, R11, R84). -/
theorem exec_next_setResult_or_encoded {i : Instr} (h : exec i s = .next t) :
    (∃ r, t = setResult r s) ∨ ∃ mask, i = .encodeIblock mask ∧ t = encodedState mask s := by
  obtain ⟨-, -, ht⟩ | ⟨-, ht⟩ | ⟨mask, hi, -, ⟨-, ht⟩ | ⟨-, ht⟩⟩ := exec_next_cases h
  · exact .inl ⟨_, ht⟩
  · exact .inl ⟨_, ht⟩
  · exact .inl ⟨_, ht⟩
  · exact .inr ⟨mask, hi, ht⟩

/-- No operation writes the parameter of R6. -/
theorem exec_config {i : Instr} (h : exec i s = .next t) : t.config = s.config := by
  obtain ⟨r, rfl⟩ | ⟨mask, -, rfl⟩ := exec_next_setResult_or_encoded h
  · exact setResult_config s r
  · exact encodedState_config

/-- No operation writes the operand ports (R11). -/
theorem exec_operands {i : Instr} (h : exec i s = .next t) : t.operands = s.operands := by
  obtain ⟨r, rfl⟩ | ⟨mask, -, rfl⟩ := exec_next_setResult_or_encoded h
  · exact setResult_operands s r
  · exact encodedState_operands

/-- `SEQ` stays, but for a header encode that answers OK, which toggles it (R14, R58). -/
theorem exec_seq {i : Instr} (h : exec i s = .next t) :
    t.seq = s.seq ∨
      ∃ mask r, i = .encodeIblock mask ∧ mask.getLsbD 0 = true ∧ t.result = some r ∧ r.res = .ok ∧
        t.seq = ~~~s.seq := by
  obtain ⟨r, rfl⟩ | ⟨mask, hi, rfl⟩ := exec_next_setResult_or_encoded h
  · exact .inl (setResult_seq s r)
  · cases hsel : mask.getLsbD 0 with
    | false => exact .inl (nextSeq_of_no_header hsel s.seq)
    | true => exact .inr ⟨mask, _, hi, hsel, encodedState_result, rfl, nextSeq_of_header hsel s.seq⟩

/-- Settles O16: the frame lemma of each part of the state. -/
theorem frameOfEveryOperation : Obligations.FrameOfEveryOperation := by
  intro i s t h
  exact ⟨exec_config h, exec_pending h, exec_operands h, exec_seq h⟩

/-! ## The step by the oldest host event -/

theorem step_of_no_event (h : s.pending = []) : step s = idleStep s := by
  rw [step, h]

theorem step_of_event {e : HostEvent} {rest : List HostEvent} (h : s.pending = e :: rest) :
    step s = takeEvent e rest s := by
  rw [step, h]

theorem issueWord_of_decode {w : Word} {i : Instr} (h : decode w = .ok i) : issueWord w s = exec i s := by
  rw [issueWord, h]

/-- Settles O7: the command comes to the ports and its decoded word is executed there. -/
theorem stepRunsTheDecodedCommand : Obligations.StepRunsTheDecodedCommand := by
  intro s c rest i hp hd
  calc step s = takeEvent (.command c) rest s := step_of_event hp
    _ = issueWord c.word (takePorts c.operands rest s) := rfl
    _ = exec i (takePorts c.operands rest s) := issueWord_of_decode hd

/-- The ports overwrite everything but `SEQ` and the parameter (R16). -/
theorem takePorts_congr (hseq : s.seq = s'.seq) (hconfig : s.config = s'.config) (o : Operands)
    (rest : List HostEvent) : takePorts o rest s = takePorts o rest s' := by
  simp only [takePorts, hseq, hconfig]

/-- An event is taken at the ports, so it sees `SEQ` and the parameter only (R11, R16). -/
theorem takeEvent_congr (hseq : s.seq = s'.seq) (hconfig : s.config = s'.config) (e : HostEvent)
    (rest : List HostEvent) : takeEvent e rest s = takeEvent e rest s' := by
  have hports := takePorts_congr hseq hconfig
  cases e with
  | reset => simp only [takeEvent, resetStep, hports]
  | command c => simp only [takeEvent, commandStep, hports]
  | concurrent c d more => rfl

/-- Settles O9: with or without an event, the step is a function of what the ports leave. -/
theorem onlySeqPersists : Obligations.OnlySeqPersists := by
  intro s s' hseq hconfig hpending
  cases hp : s'.pending with
  | nil =>
    rw [step_of_no_event (hpending.trans hp), step_of_no_event hp, idleStep, idleStep,
      takePorts_congr hseq hconfig]
  | cons e rest =>
    rw [step_of_event (hpending.trans hp), step_of_event hp]
    exact takeEvent_congr hseq hconfig e rest

end Sys2Proof.Machine

/-! The result port (10_state.md R19, R20; 60_exceptions.md R80): the record of every operation is one the rules
allow, so every step leaves a legal record, or none, at the port. -/

namespace Sys2Proof.Machine

variable {s t : State} {mask : Mask}

/-! ## Records with the fields of one operation -/

theorem errorRecord_legal {c : ResCode} (hok : c ≠ .ok) (hchip : c ≠ .chipStatus) : RecordLegal (errorRecord c) := by
  have hbare : CrcMismatchRecord (errorRecord .crcMismatch) := .inr (.inl rfl)
  constructor <;> simp_all [errorRecord]

theorem crcRecord_legal (c : Word) : RecordLegal { res := .ok, crc := some c } := by
  have hok : OkRecord { res := .ok, crc := some c } := .inl ⟨c, rfl⟩
  constructor <;> simp [hok]

theorem crcResidueRecord_legal {c : Word} (hc : c ≠ 0) : RecordLegal { res := .crcMismatch, crc := some c } := by
  have hmismatch : CrcMismatchRecord { res := .crcMismatch, crc := some c } := .inl ⟨c, hc, rfl⟩
  constructor <;> simp [hmismatch]

theorem frameRecord_legal {f : Span} (hf : f.length ≤ 255) : RecordLegal { res := .ok, frame := some f } := by
  have hok : OkRecord { res := .ok, frame := some f } := .inr (.inl ⟨f, rfl⟩)
  constructor <;> simp [hok, hf]

/-- A validated status is legal beside data of at most 250 bytes, none under the narrow window (R77, R78). -/
theorem statusRecord_legal {sw : Word} {w : Window} {d : Span} (hd : d.length ≤ 250)
    (hnarrow : w = .narrow → d = []) : RecordLegal (statusRecord sw w d) := by
  have hok : statusResult sw = .ok → OkRecord (statusRecord sw w d) := by
    intro hsw
    have : sw = 0x9000 := by simpa [statusResult] using hsw
    exact .inr (.inr (.inr (.inl ⟨w, d, by rw [statusRecord, hsw, this]⟩)))
  have hcodes : statusResult sw = .ok ∨ sw ≠ 0x9000 ∧ statusResult sw = .chipStatus := by
    unfold statusResult; split <;> simp_all
  constructor <;> rcases hcodes with h | ⟨hsw, h⟩ <;> simp_all [statusRecord]

/-! ## The CRC engine and the codec -/

theorem crcCheckRecord_legal (span : Span) : RecordLegal (crcCheckRecord span) := by
  unfold crcCheckRecord
  split
  · exact crcRecord_legal _
  · exact crcResidueRecord_legal (by simp_all [residueZero])

theorem payloadField_length {d : Descriptor} (h : descriptorAdmitted d = true) :
    (payloadField d).length = d.lc.toNat := by
  unfold payloadField
  split
  · exact (descriptorAdmitted_iff d).mp h _ ‹_›
  · exact zeros_length _

/-- An emitted frame has the declared length (R42, R60). -/
theorem encodeFrame_length {d : Descriptor} (h : descriptorAdmitted d = true) (cfg : Config) (mask : Mask)
    (seq : BitVec 1) (did : Byte) : (encodeFrame cfg mask seq d did).length = flen mask d.lc.toNat := by
  simp [encodeFrame, frameBody, flen, fieldLen, fieldBytes, emit_length, payloadField_length h, Nat.add_assoc]

/-! ## The classifier -/

theorem kindBits_blockKind (h : Byte) : kindBits (blockKind h) = h.extractLsb' 6 2 := by
  revert h; decide +kernel

theorem blockNumber_isSome (h : Byte) :
    (blockNumber h).isSome = true ↔ blockKind h = .information ∨ blockKind h = .receiveReady := by
  unfold blockNumber; split <;> simp_all

theorem subType_isSome (h : Byte) : (subType h).isSome = true ↔ blockKind h = .supervisory := by
  unfold subType
  split
  · split <;> simp_all
  all_goals simp_all

theorem fwtByte_isSome {h : Byte} {span : Span} (hf : (fwtByte h span).isSome = true) : subType h = some .wtx := by
  unfold fwtByte at hf
  split at hf
  · assumption
  · cases hf

theorem classifyRecord_legal (span : Span) : RecordLegal (classifyRecord span) := by
  cases span with
  | nil => exact errorRecord_legal (by decide) (by decide)
  | cons h rest =>
    have hok : OkRecord (classifyRecord (h :: rest)) := .inr (.inr (.inl ⟨h, blockKind h, rfl⟩))
    exact
      { frame_width := by simp [classifyRecord]
        data_width := by simp [classifyRecord]
        payload_width := by simp [classifyRecord]
        ok_record := fun _ => hok
        crc_mismatch := by simp [classifyRecord]
        bare_error := by simp [classifyRecord]
        chip_status := by simp [classifyRecord]
        kind_of_header := congrArg some (kindBits_blockKind h)
        blk_kinds := by simpa [classifyRecord] using blockNumber_isSome h
        sub_kind := by simpa [classifyRecord] using subType_isSome h
        fwt_sub := fwtByte_isSome
        narrow_data := by simp [classifyRecord]
        payload_length := by simp [classifyRecord] }

/-! ## The validator -/

theorem validateRecord_legal {span : Span} (h : span.length ≤ maxFrame) : RecordLegal (validateRecord span) := by
  unfold validateRecord
  split
  · have hdata : (subSpan span 1 (span.length - 4)).length ≤ 250 := by
      simp only [subSpan, List.length_drop, List.length_take, maxFrame] at h ⊢
      omega
    exact statusRecord_legal hdata (by simp)
  · split
    · exact statusRecord_legal (by simp) (by simp)
    · exact errorRecord_legal (by decide) (by decide)

/-! ## The header parser -/

theorem splitByte_rest_length {f : Field} (hf : fieldBytes f 0 = 1) (mask : Mask) (rest : Span) :
    (splitByte mask f rest).2.length = rest.length - fieldLen mask f 0 := by
  unfold splitByte fieldLen
  split <;> simp [hf]

theorem splitPayload_eq_some {n : Nat} {rest p : Span} :
    (splitPayload mask n rest).1 = some p ↔ selects mask .payload = true ∧ rest.take n = p := by
  unfold splitPayload
  split <;> simp_all

theorem splitPayload_rest_length {n : Nat} (hn : selects mask .payload = false → n = 0) (rest : Span) :
    (splitPayload mask n rest).2.length = rest.length - n := by
  unfold splitPayload
  split <;> simp_all

theorem splitCrc_isSome {rest : Span} (hsel : selects mask .crc = true) (h : 2 ≤ rest.length) :
    (splitCrc mask rest).isSome = true := by
  match rest, h with
  | lo :: hi :: _, _ => simp [splitCrc, hsel]

/-- `D_LC` of a span under a mask, and the bytes after it, once the six one-byte fields before it are split off. -/
def lengthSplit (mask : Mask) (span : Span) : Option Byte × Span :=
  splitByte mask .length <| Prod.snd <| splitByte mask .p2 <| Prod.snd <| splitByte mask .p1 <| Prod.snd <|
    splitByte mask .ins <| Prod.snd <| splitByte mask .cla <| Prod.snd <| splitByte mask .deviceId <| Prod.snd <|
      splitByte mask .header span

/-- The payload length `n` of R71, as DECODE_IBLOCK finds it. -/
def splitPayloadLen (mask : Mask) (span : Span) : Nat :=
  decodedPayloadLen mask (lengthSplit mask span).1 span.length

/-- `D_PAYLOAD` of a span under a mask, and the bytes after it. -/
def payloadSplit (mask : Mask) (span : Span) : Option Span × Span :=
  splitPayload mask (splitPayloadLen mask span) (lengthSplit mask span).2

/-- All DECODE_IBLOCK can answer: FRAME_FORMAT, or the decoded fields of a span as long as its mask asks (R71, R72). -/
theorem decodeRecord_cases (mask : Mask) (span : Span) :
    decodeRecord mask span = errorRecord .frameFormat ∨
      (splitPayloadLen mask span ≤ maxPayload ∧ flen mask 0 + splitPayloadLen mask span = span.length ∧
        decodeRecord mask span = decodedPart (decodeResult mask span) (decodeRecord mask span) ∧
        (decodeRecord mask span).dLc = (lengthSplit mask span).1 ∧
        (decodeRecord mask span).dPayload = (payloadSplit mask span).1 ∧
        (decodeRecord mask span).dCrc =
          splitCrc mask (splitByte mask .expectedLength (payloadSplit mask span).2).2) := by
  unfold decodeRecord
  split
  · exact .inl rfl
  · dsimp only
    split
    · exact .inl rfl
    · next hlen =>
      have hlen : ¬ (maxPayload < splitPayloadLen mask span ∨
        flen mask 0 + splitPayloadLen mask span ≠ span.length) := hlen
      exact .inr ⟨by omega, by omega, rfl, rfl, rfl, rfl⟩

theorem splitPayloadLen_of_length {lc : Byte} {span : Span} (hsel : selects mask .payload = true)
    (hlc : (lengthSplit mask span).1 = some lc) : splitPayloadLen mask span = lc.toNat := by
  simp [splitPayloadLen, decodedPayloadLen, hsel, hlc]

theorem splitPayloadLen_of_no_payload {span : Span} (hsel : selects mask .payload = false) :
    splitPayloadLen mask span = 0 := by
  simp [splitPayloadLen, decodedPayloadLen, hsel]

/-- After `D_LC` of a span as long as its mask asks stand the payload, the expected length and the CRC. -/
theorem lengthSplit_rest_length {span : Span} {n : Nat} (h : flen mask 0 + n = span.length) :
    (lengthSplit mask span).2.length = n + fieldLen mask .expectedLength 0 + fieldLen mask .crc 0 := by
  have hpayload : fieldLen mask .payload 0 = 0 := by unfold fieldLen; split <;> rfl
  have hone : ∀ f ∈ [Field.header, .deviceId, .cla, .ins, .p1, .p2, .length], fieldBytes f 0 = 1 := by decide
  unfold flen at h
  simp only [lengthSplit, splitByte_rest_length (hone _ _), List.mem_cons, true_or, or_true]
  omega

/-- The payload of a span as long as its mask asks is not cut short. -/
theorem payloadSplit_length {span p : Span} (h : flen mask 0 + splitPayloadLen mask span = span.length)
    (hp : (payloadSplit mask span).1 = some p) : p.length = splitPayloadLen mask span := by
  obtain ⟨-, rfl⟩ := splitPayload_eq_some.mp hp
  have hrest := lengthSplit_rest_length h
  rw [List.length_take]
  omega

/-- The CRC of a span as long as its mask asks is not cut short. -/
theorem splitCrc_isSome_of_length {span : Span} (h : flen mask 0 + splitPayloadLen mask span = span.length)
    (hsel : selects mask .crc = true) :
    (splitCrc mask (splitByte mask .expectedLength (payloadSplit mask span).2).2).isSome = true := by
  have hcrc : fieldLen mask .crc 0 = 2 := by simp [fieldLen, hsel, fieldBytes]
  have hrest := lengthSplit_rest_length h
  apply splitCrc_isSome hsel
  rw [splitByte_rest_length rfl, payloadSplit, splitPayload_rest_length splitPayloadLen_of_no_payload]
  omega

theorem decodeResult_cases (mask : Mask) (span : Span) :
    decodeResult mask span = .ok ∨ decodeResult mask span = .crcMismatch ∧ selects mask .crc = true := by
  unfold decodeResult
  split <;> simp_all

/-- Decoded fields are legal with OK, and with CRC_MISMATCH where `D_CRC` is among them (R72, R80). -/
theorem decodedPart_legal {r : ResultRecord} {c : ResCode}
    (hcode : c = .ok ∨ c = .crcMismatch ∧ r.dCrc.isSome = true)
    (hpayload : ∀ p, r.dPayload = some p → p.length ≤ 246)
    (hlength : ∀ lc p, r.dLc = some lc → r.dPayload = some p → p.length = lc.toNat) :
    RecordLegal (decodedPart c r) := by
  obtain rfl | ⟨rfl, hcrc⟩ := hcode
  · have hok : OkRecord (decodedPart .ok r) := .inr (.inr (.inr (.inr rfl)))
    constructor <;> simp_all [decodedPart]
  · have hmismatch : CrcMismatchRecord (decodedPart .crcMismatch r) := .inr (.inr ⟨hcrc, rfl⟩)
    constructor <;> simp_all [decodedPart]

theorem decodeRecord_legal (mask : Mask) (span : Span) : RecordLegal (decodeRecord mask span) := by
  obtain he | ⟨hmax, hlen, he, hlc, hp, hcrc⟩ := decodeRecord_cases mask span
  · rw [he]
    exact errorRecord_legal (by decide) (by decide)
  · rw [he]
    apply decodedPart_legal
    · exact (decodeResult_cases mask span).imp_right fun ⟨hc, hsel⟩ =>
        ⟨hc, hcrc ▸ splitCrc_isSome_of_length hlen hsel⟩
    · exact fun p h => (payloadSplit_length hlen (hp ▸ h)).trans_le hmax
    · intro lc p hl h
      have hsel := (splitPayload_eq_some.mp (hp ▸ h)).1
      rw [payloadSplit_length hlen (hp ▸ h), splitPayloadLen_of_length hsel (hlc ▸ hl)]

/-! ## The port -/

theorem resultPortLegal_of_no_result (h : s.result = none) : ResultPortLegal s := by
  intro r hr
  cases h.symm.trans hr

theorem setResult_resultPortLegal {r : ResultRecord} (hr : RecordLegal r) (s : State) :
    ResultPortLegal (setResult r s) := by
  intro q hq
  cases hq
  exact hr

/-- An operation leaves a legal record, whatever stood at the port (R19, R80). -/
theorem exec_resultPortLegal {i : Instr} (h : exec i s = .next t) : ResultPortLegal t := by
  cases i with
  | crcCompute =>
    obtain ⟨-, rfl⟩ := exec_crcCompute_next.mp h
    exact setResult_resultPortLegal (crcRecord_legal _) s
  | crcCheck =>
    obtain ⟨-, rfl⟩ := exec_crcCheck_next.mp h
    exact setResult_resultPortLegal (crcCheckRecord_legal _) s
  | classify =>
    obtain ⟨-, rfl⟩ := exec_classify_next.mp h
    exact setResult_resultPortLegal (classifyRecord_legal _) s
  | validate =>
    obtain ⟨ha, rfl⟩ := exec_validate_next.mp h
    exact setResult_resultPortLegal (validateRecord_legal (of_decide_eq_true ha)) s
  | decodeIblock mask =>
    obtain ⟨-, rfl⟩ := exec_decodeIblock_next.mp h
    exact setResult_resultPortLegal (decodeRecord_legal mask _) s
  | encodeWtxAck =>
    obtain rfl := exec_encodeWtxAck_next.mp h
    exact setResult_resultPortLegal (frameRecord_legal (by simp [wtxAckFrame])) s
  | encodeIblock mask =>
    obtain ⟨ha, ⟨-, rfl⟩ | ⟨⟨-, hlen⟩, rfl⟩⟩ := exec_encodeIblock_next.mp h
    · exact setResult_resultPortLegal (errorRecord_legal (by decide) (by decide)) s
    · exact setResult_resultPortLegal (frameRecord_legal ((encodeFrame_length ha ..).trans_le hlen)) _

/-- Settles O22: nothing stands at the port after reset. -/
theorem resultPortLegalAtReset : Obligations.ResultPortLegalAtReset := resultPortLegal_of_no_result rfl

/-- Settles O21: a step leaves the port empty, with ILLEGAL_COMMAND, or with the record of an operation. -/
theorem stepKeepsTheResultPortLegal : Obligations.StepKeepsTheResultPortLegal := by
  intro s t _ h
  obtain ⟨-, rfl⟩ | ⟨rest, -, rfl⟩ | ⟨c, rest, why, -, -, rfl⟩ | ⟨c, rest, i, -, -, he⟩ := step_next_cases h
  · exact resultPortLegal_of_no_result rfl
  · exact resultPortLegal_of_no_result rfl
  · exact setResult_resultPortLegal (errorRecord_legal (by decide) (by decide)) _
  · exact exec_resultPortLegal he

end Sys2Proof.Machine

/-! Which commands complete, and what the operations read (10_state.md R14, R17; 60_exceptions.md R82): the named
operands decide, and no operation but a header encode sees `SEQ`. -/

namespace Sys2Proof.Machine

variable {s t u : State} {i : Instr} {v : BitVec 1} {o o' : Operands}

/-- The operations by what they name (R17): a span, the FWT byte, or a descriptor with a device-id. -/
theorem instr_cases (i : Instr) : namesSpan i = true ∨ i = .encodeWtxAck ∨ ∃ mask, i = .encodeIblock mask := by
  cases i <;> simp [namesSpan]

/-- The five operations over a span answer their record on an admitted span, and nothing else (R82). -/
theorem exec_next_iff_of_namesSpan (hi : namesSpan i = true) : exec i s = .next t ↔
    spanAdmitted s.operands.span = true ∧ t = setResult (spanRecord i s.operands.span) s := by
  cases i with
  | crcCompute => exact exec_crcCompute_next
  | crcCheck => exact exec_crcCheck_next
  | classify => exact exec_classify_next
  | validate => exact exec_validate_next
  | decodeIblock mask => exact exec_decodeIblock_next
  | encodeIblock mask => cases hi
  | encodeWtxAck => cases hi

theorem operandsAdmitted_of_namesSpan (hi : namesSpan i = true) : operandsAdmitted i o = spanAdmitted o.span := by
  cases i <;> simp_all [namesSpan, operandsAdmitted]

/-! ## Completion -/

/-- An operation completes when its named operands are admitted (R82, R99). -/
theorem exec_admitted (h : operandsAdmitted i s.operands = true) : ∃ t, exec i s = .next t := by
  obtain hi | rfl | ⟨mask, rfl⟩ := instr_cases i
  · exact ⟨_, (exec_next_iff_of_namesSpan hi).mpr ⟨operandsAdmitted_of_namesSpan hi ▸ h, rfl⟩⟩
  · exact ⟨_, exec_encodeWtxAck_next.mpr rfl⟩
  · by_cases hlen : lengthsPass mask s.operands.descriptor
    · exact ⟨_, exec_encodeIblock_next.mpr ⟨h, .inr ⟨hlen, rfl⟩⟩⟩
    · exact ⟨_, exec_encodeIblock_next.mpr ⟨h, .inl ⟨hlen, rfl⟩⟩⟩

/-- Settles O13: admitted operands give a next state with its record, any other the boundary's refusal. -/
theorem commandsCompleteExactlyWhenAdmitted : Obligations.CommandsCompleteExactlyWhenAdmitted := by
  intro i s
  refine ⟨fun h => ?_, fun h => ⟨_, exec_refused h⟩⟩
  obtain ⟨t, ht⟩ := exec_admitted h
  obtain ⟨r, hr⟩ := exec_result ht
  exact ⟨t, r, ht, hr⟩

/-- An operation is refused exactly where its named operands are not admitted, each for its own reason (R82). -/
theorem exec_refused_iff {r : Refusal} :
    exec i s = .refused r ↔ operandsAdmitted i s.operands = false ∧ r = boundaryRefusal i := by
  cases h : operandsAdmitted i s.operands with
  | true =>
    obtain ⟨t, ht⟩ := exec_admitted h
    simp [ht]
  | false =>
    rw [exec_refused h, Host.Outcome.refused.injEq]
    simp [eq_comm]

/-! ## What an operation does not read -/

/-- Without the header a frame shows no sequence bit (R53, R54). -/
theorem encodeFrame_of_no_header {mask : Mask} (h : selects mask .header = false) (cfg : Config) (d : Descriptor)
    (did : Byte) (v w : BitVec 1) : encodeFrame cfg mask v d did = encodeFrame cfg mask w d did := by
  simp [encodeFrame, frameBody, emit, h]

/-- An encode without the header neither reads nor writes `SEQ` (R14, R58). -/
theorem encodedState_writeSeq {mask : Mask} (h : mask.getLsbD 0 = false) (v : BitVec 1) (s : State) :
    encodedState mask (writeSeq v s) = writeSeq v (encodedState mask s) := by
  have hframe := encodeFrame_of_no_header h s.config s.operands.descriptor s.operands.did v s.seq
  simp only [encodedState, writeSeq_seq, writeSeq_config, writeSeq_operands, nextSeq_of_no_header h, hframe]
  rfl

/-- Settles O17: an operation's record is made of its operands, and an encode without a header has no header byte to
show `SEQ` in. -/
theorem seqReachesNoOtherResult : Obligations.SeqReachesNoOtherResult := by
  intro i s t v hseq h
  change exec i (writeSeq v s) = .next (writeSeq v t)
  obtain hi | rfl | ⟨mask, rfl⟩ := instr_cases i
  · obtain ⟨ha, rfl⟩ := (exec_next_iff_of_namesSpan hi).mp h
    exact (exec_next_iff_of_namesSpan hi).mpr ⟨ha, rfl⟩
  · obtain rfl := exec_encodeWtxAck_next.mp h
    exact exec_encodeWtxAck_next.mpr rfl
  · obtain ⟨ha, ⟨hlen, rfl⟩ | ⟨hlen, rfl⟩⟩ := exec_encodeIblock_next.mp h
    · exact exec_encodeIblock_next.mpr ⟨ha, .inl ⟨hlen, rfl⟩⟩
    · exact exec_encodeIblock_next.mpr ⟨ha, .inr ⟨hlen, (encodedState_writeSeq hseq v s).symm⟩⟩

theorem agreeOnNamed_span (hi : namesSpan i = true) (h : agreeOnNamed i o o') : o'.span = o.span := by
  cases i <;> simp_all [namesSpan, agreeOnNamed]

/-- The boundary looks at the named operands only (R17, R82). -/
theorem operandsAdmitted_congr (h : agreeOnNamed i o o') : operandsAdmitted i o' = operandsAdmitted i o := by
  obtain hi | rfl | ⟨mask, rfl⟩ := instr_cases i
  · rw [operandsAdmitted_of_namesSpan hi, operandsAdmitted_of_namesSpan hi, agreeOnNamed_span hi h]
  · rfl
  · exact congrArg descriptorAdmitted h.1.symm

/-- What an operation answers beside other unnamed operands (R17). -/
theorem exec_next_of_agree (h : agreeOnNamed i s.operands o) (he : exec i s = .next t) :
    exec i { s with operands := o } = .next { t with operands := o } := by
  obtain hi | rfl | ⟨mask, rfl⟩ := instr_cases i
  · obtain ⟨ha, rfl⟩ := (exec_next_iff_of_namesSpan hi).mp he
    have hspan := agreeOnNamed_span hi h
    rw [exec_next_iff_of_namesSpan hi]
    simp only [hspan]
    exact ⟨ha, rfl⟩
  · obtain rfl := exec_encodeWtxAck_next.mp he
    have hfwt : s.operands.fwt = o.fwt := h
    rw [exec_encodeWtxAck_next, hfwt]
    rfl
  · obtain ⟨hd, hdid⟩ := h
    rw [exec_encodeIblock_next] at he ⊢
    obtain ⟨ha, ⟨hlen, rfl⟩ | ⟨hlen, rfl⟩⟩ := he
    · exact ⟨hd ▸ ha, .inl ⟨hd ▸ hlen, rfl⟩⟩
    · refine ⟨hd ▸ ha, .inr ⟨hd ▸ hlen, ?_⟩⟩
      rw [encodedState, encodedState, hd, hdid]
      rfl

/-- Settles O18: the boundary and the records see the named operands only. -/
theorem unnamedOperandsAreIgnored : Obligations.UnnamedOperandsAreIgnored := by
  intro i s o h
  refine ⟨fun t he => exec_next_of_agree h he, fun r he => ?_⟩
  rw [exec_refused_iff] at he ⊢
  rwa [operandsAdmitted_congr h]

end Sys2Proof.Machine

/-! Runs over the host's events (20_memory.md R33; 10_state.md R13, R19, R22): one record for each command, in order,
and an admitted schedule runs to its end. -/

namespace Sys2Proof.Machine

variable {s t u : State} {k : Nat}

/-! ## One step and its record -/

theorem issueWord_illegal {w : Word} {why : IllegalWord} (h : decode w = .error why) :
    issueWord w s = raiseIllegalCommand s := by
  rw [issueWord, h]

/-- A step returns a record when it takes a command, and none when it takes a reset or no event (R19, R90). -/
theorem step_result_cases (h : step s = .next t) :
    (s.pending = [] ∧ t.result = none) ∨
    (∃ rest, s.pending = .reset :: rest ∧ t.result = none) ∨
    (∃ c rest r, s.pending = .command c :: rest ∧ t.result = some r) := by
  obtain ⟨hp, rfl⟩ | ⟨rest, hp, rfl⟩ | ⟨c, rest, why, hp, -, rfl⟩ | ⟨c, rest, i, hp, -, he⟩ := step_next_cases h
  · exact .inl ⟨hp, rfl⟩
  · exact .inr (.inl ⟨rest, hp, rfl⟩)
  · exact .inr (.inr ⟨c, rest, _, hp, rfl⟩)
  · obtain ⟨r, hr⟩ := exec_result he
    exact .inr (.inr ⟨c, rest, r, hp, hr⟩)

/-- The block takes an admitted event (R82, R99). -/
theorem step_of_admitted {e : HostEvent} {rest : List HostEvent} (hp : s.pending = e :: rest)
    (h : eventAdmitted e = true) : ∃ t, step s = .next t := by
  rw [step_of_event hp]
  cases e with
  | reset => exact ⟨_, rfl⟩
  | concurrent c d more => cases h
  | command c =>
    rw [takeEvent, commandStep]
    cases hd : decode c.word with
    | error why => exact ⟨_, issueWord_illegal hd⟩
    | ok i =>
      rw [issueWord_of_decode hd]
      exact exec_admitted (by simpa [eventAdmitted, hd] using h)

/-! ## Runs -/

/-- A run takes the oldest host events, one for each step (R33). -/
theorem run_pending (h : Host.Core.run core k s = .next u) : u.pending = s.pending.drop k := by
  induction k generalizing s with
  | zero => rw [← run_zero.mp h, List.drop_zero]
  | succ k ih =>
    obtain ⟨t, hs, hrun⟩ := run_succ.mp h
    rw [ih hrun, step_pending hs, List.drop_tail]

/-- A run returns as many records as it takes commands (R19). -/
theorem recordsReturned_length (h : Host.Core.run core k s = .next u) :
    (recordsReturned k s).length = commandCount (s.pending.take k) := by
  induction k generalizing s with
  | zero => rfl
  | succ k ih =>
    obtain ⟨t, hs, hrun⟩ := run_succ.mp h
    rw [recordsReturned_succ hs, List.length_append, ih hrun, step_pending hs]
    obtain ⟨hp, hr⟩ | ⟨rest, hp, hr⟩ | ⟨c, rest, r, hp, hr⟩ := step_result_cases hs
    · simp [hp, hr, commandCount]
    · simp [hp, hr, commandCount]
    · simp [hp, hr, commandCount, Nat.add_comm]

/-- A run pairs each command it takes with one record (R19, R33). -/
theorem exchanges_commands (h : Host.Core.run core k s = .next u) :
    (exchanges k s).map (HostEvent.command ∘ Prod.fst) = (s.pending.take k).filter (· ≠ .reset) := by
  induction k generalizing s with
  | zero => rfl
  | succ k ih =>
    obtain ⟨t, hs, hrun⟩ := run_succ.mp h
    rw [exchanges_succ hs, List.map_append, ih hrun, step_pending hs]
    obtain ⟨hp, hr⟩ | ⟨rest, hp, hr⟩ | ⟨c, rest, r, hp, hr⟩ := step_result_cases hs
    · simp [exchange, hp]
    · simp [exchange, hp]
    · simp [exchange, hp, hr]

/-- The records of a run are those of its exchanges (R19). -/
theorem exchanges_records (h : Host.Core.run core k s = .next u) :
    (exchanges k s).map Prod.snd = recordsReturned k s := by
  induction k generalizing s with
  | zero => rfl
  | succ k ih =>
    obtain ⟨t, hs, hrun⟩ := run_succ.mp h
    rw [exchanges_succ hs, recordsReturned_succ hs, List.map_append, ih hrun]
    obtain ⟨hp, hr⟩ | ⟨rest, hp, hr⟩ | ⟨c, rest, r, hp, hr⟩ := step_result_cases hs
    · simp [exchange, hp, hr]
    · simp [exchange, hp, hr]
    · simp [exchange, hp, hr]

/-- Settles O54: commands, records and events left, each by its own induction on the run. -/
theorem eachCommandGetsItsRecordInOrder : Obligations.EachCommandGetsItsRecordInOrder :=
  fun _ _ _ h => ⟨exchanges_commands h, exchanges_records h, run_pending h⟩

/-- The block takes every event of an admitted schedule (R99). -/
theorem run_of_admitted {es : List HostEvent} (hp : s.pending = es) (h : ∀ e ∈ es, eventAdmitted e = true) :
    ∃ u, Host.Core.run core es.length s = .next u := by
  induction es generalizing s with
  | nil => exact ⟨s, run_zero.mpr rfl⟩
  | cons e rest ih =>
    obtain ⟨he, hrest⟩ := List.forall_mem_cons.mp h
    obtain ⟨t, ht⟩ := step_of_admitted hp he
    obtain ⟨u, hu⟩ := ih (by rw [step_pending ht, hp, List.tail_cons]) hrest
    exact ⟨u, run_succ.mpr ⟨t, ht, hu⟩⟩

/-- Settles O14: the schedule runs, and a whole run leaves no event and has a record for each command. -/
theorem admittedSchedulesRunToTheEnd : Obligations.AdmittedSchedulesRunToTheEnd := by
  intro s h
  obtain ⟨u, hu⟩ := run_of_admitted rfl h
  refine ⟨u, hu, ?_, ?_⟩
  · rw [run_pending hu, List.drop_length]
  · rw [recordsReturned_length hu, List.take_length]

/-! ## A placed word -/

/-- The three fields of a format-CM word (R37, R39): the operation code, the mask, and two zero bits above it. -/
theorem encodeCM_fields {op : Word} (hop : op.toNat < 16) (m : Mask) :
    (encodeCM op m).toNat % 16 = op.toNat ∧ (encodeCM op m).toNat / 16384 = 0 ∧ maskOf (encodeCM op m) = m := by
  have hm := m.isLt
  rw [← BitVec.toNat_inj, maskOf_toNat, encodeCM_toNat op m hop]
  omega

/-- The decoder reads the word of every operation back (R40, R44). -/
theorem decode_encode (i : Instr) : decode (encode i) = .ok i := by
  cases i with
  | encodeIblock m =>
    obtain ⟨hop, htop, hmask⟩ := encodeCM_fields (op := 0x0003) (by decide) m
    rw [encode, decode_eq, hop, htop, hmask]
    rfl
  | decodeIblock m =>
    obtain ⟨hop, htop, hmask⟩ := encodeCM_fields (op := 0x0007) (by decide) m
    rw [encode, decode_eq, hop, htop, hmask]
    rfl
  | crcCompute => decide
  | crcCheck => decide
  | encodeWtxAck => decide
  | classify => decide
  | validate => decide

theorem commandWord_toNat (w : Word) : commandWord 16 w.toNat = w := by
  rw [commandWord, Nat.mod_eq_of_lt w.isLt, BitVec.ofNat_toNat, BitVec.setWidth_eq]

/-- Settles O8: the placed word is the oldest event, and it decodes to its operation. -/
theorem placedWordRunsNext : Obligations.PlacedWordRunsNext := by
  intro s i
  rw [State.withFetchWord, commandWord_toNat]
  exact stepRunsTheDecodedCommand (presentWord (encode i) s) _ s.pending i rfl (decode_encode i)

/-! ## Instances -/

theorem instanceStep_next {j : Nat} {blocks : Instances} (hs : blocks[j]? = some s) (h : step s = .next t) :
    instanceStep j blocks = .next (blocks.set j t) := by
  simp [instanceStep, hs, h]

theorem instanceStep_refused {j : Nat} {blocks : Instances} {r : Refusal} (hs : blocks[j]? = some s)
    (h : step s = .refused r) : instanceStep j blocks = .refused r := by
  simp [instanceStep, hs, h]

/-- Settles O15: a block's step replaces that block in the list and no other. -/
theorem instancesAreIndependent : Obligations.InstancesAreIndependent := by
  intro k blocks s hs
  refine ⟨fun t ht => ⟨_, instanceStep_next hs ht, ?_, fun j hj => ?_⟩, fun r hr => instanceStep_refused hs hr⟩
  · obtain ⟨hk, -⟩ := List.getElem?_eq_some_iff.mp hs
    exact List.getElem?_set_self hk
  · exact List.getElem?_set_ne hj.symm

end Sys2Proof.Machine

/-! `SEQ` over whole runs (10_state.md R14): it follows the sequence bit of each emitted header, and nothing but a reset
writes it otherwise. -/

namespace Sys2Proof.Machine

variable {s t u : State} {k : Nat} {mask : Mask}

/-! ## The header a frame carries -/

/-- Bit 0 of a header is its sequence bit, under both values of the parameter (R54). -/
theorem headerByte_seqBit (cfg : Config) (mask : Mask) (v : BitVec 1) :
    (headerByte cfg mask v).extractLsb' 0 1 = v := by
  unfold headerByte
  cases cfg.hdrDidBit && selects mask .deviceId <;> revert v <;> decide

/-- A frame with the header selected carries the sequence bit it was built with (R53, R54). -/
theorem seqBitOf_encodeFrame (h : selects mask .header = true) (cfg : Config) (v : BitVec 1) (d : Descriptor)
    (did : Byte) : seqBitOf (encodeFrame cfg mask v d did) = some v := by
  simp [seqBitOf, encodeFrame, frameBody, emit, h, headerByte_seqBit]

/-! ## What one step emits -/

theorem touchesSeq_eq_true {i : Instr} (h : touchesSeq i = true) :
    ∃ mask, i = .encodeIblock mask ∧ selects mask .header = true := by
  cases i with
  | encodeIblock mask => exact ⟨mask, rfl, h⟩
  | _ => cases h

/-- An operation that does not touch `SEQ` leaves it (R14). -/
theorem exec_seq_of_not_touchesSeq {i : Instr} (hi : touchesSeq i = false) (h : exec i s = .next t) :
    t.seq = s.seq := by
  obtain hseq | ⟨mask, r, rfl, hsel, -⟩ := exec_seq h
  · exact hseq
  · cases hi.symm.trans hsel

/-- An operation that does not touch `SEQ` emits no header (R58). -/
theorem iblockEmitted_of_not_touchesSeq {c : Command} {rest : List HostEvent} {i : Instr}
    (hp : s.pending = .command c :: rest) (hd : decode c.word = .ok i) (hi : touchesSeq i = false) (t : State) :
    iblockEmitted s t = none := by
  cases i <;> simp_all [iblockEmitted, touchesSeq]

/-- A header encode emits the frame of its record, where that is OK (R58). -/
theorem iblockEmitted_of_headerEncode {c : Command} {rest : List HostEvent} {r : ResultRecord}
    (hp : s.pending = .command c :: rest) (hd : decode c.word = .ok (.encodeIblock mask))
    (hsel : selects mask .header = true) (hr : t.result = some r) :
    iblockEmitted s t = if r.res = .ok then r.frame else none := by
  simp [iblockEmitted, hp, hd, hsel, hr]

/-- A step emits a frame with the other sequence bit than `SEQ` and toggles `SEQ` to it, or emits no header and leaves
`SEQ`; only a reset does neither (R14, R58, R90). -/
theorem step_seq_cases (h : step s = .next t) (hreset : ∀ rest, s.pending ≠ .reset :: rest) :
    (iblockEmitted s t = none ∧ t.seq = s.seq) ∨
      ∃ f, iblockEmitted s t = some f ∧ seqBitOf f = some (~~~s.seq) ∧ t.seq = ~~~s.seq := by
  obtain ⟨hp, rfl⟩ | ⟨rest, hp, -⟩ | ⟨c, rest, why, hp, hd, rfl⟩ | ⟨c, rest, i, hp, hd, he⟩ := step_next_cases h
  · exact .inl ⟨by simp [iblockEmitted, hp], rfl⟩
  · exact absurd hp (hreset rest)
  · exact .inl ⟨by simp [iblockEmitted, hp, hd], rfl⟩
  · cases hi : touchesSeq i with
    | false =>
      exact .inl ⟨iblockEmitted_of_not_touchesSeq hp hd hi t,
        (exec_seq_of_not_touchesSeq hi he).trans (takePorts_seq ..)⟩
    | true =>
      obtain ⟨mask, rfl, hsel⟩ := touchesSeq_eq_true hi
      obtain ⟨-, ⟨-, rfl⟩ | ⟨-, rfl⟩⟩ := exec_encodeIblock_next.mp he
      · exact .inl ⟨iblockEmitted_of_headerEncode hp hd hsel (setResult_result ..), rfl⟩
      · have hseq := nextSeq_of_header hsel s.seq
        refine .inr ⟨_, iblockEmitted_of_headerEncode hp hd hsel encodedState_result, ?_, hseq⟩
        exact (seqBitOf_encodeFrame hsel ..).trans (congrArg some hseq)

/-! ## Whole runs -/

/-- A run without reset starts with no reset, and goes on without one. -/
theorem noReset_succ (hn : Claims.noReset (k + 1) s) (h : step s = .next t) :
    (∀ rest, s.pending ≠ .reset :: rest) ∧ Claims.noReset k t := by
  unfold Claims.noReset at hn ⊢
  rw [step_pending h]
  cases hp : s.pending with
  | nil => simp
  | cons e rest =>
    rw [hp, List.take_succ_cons] at hn
    obtain ⟨he, hrest⟩ := List.forall_mem_cons.mp hn
    exact ⟨fun _ hc => he (List.cons.inj hc).1, hrest⟩

theorem iblocksEmitted_succ (h : step s = .next t) :
    iblocksEmitted (k + 1) s = (iblockEmitted s t).toList ++ iblocksEmitted k t := by rw [iblocksEmitted, h]

/-- After a run without reset `SEQ` is as before, where no header was emitted, or the bit of the last one (R14). -/
theorem run_seq_cases (hn : Claims.noReset k s) (hrun : Host.Core.run core k s = .next u) :
    (iblocksEmitted k s = [] ∧ u.seq = s.seq) ∨
      ∃ f, (iblocksEmitted k s).getLast? = some f ∧ seqBitOf f = some u.seq := by
  induction k generalizing s with
  | zero => exact .inl ⟨rfl, congrArg State.seq (run_zero.mp hrun).symm⟩
  | succ k ih =>
    obtain ⟨t, hs, hrun⟩ := run_succ.mp hrun
    obtain ⟨hfirst, hn⟩ := noReset_succ hn hs
    rw [iblocksEmitted_succ hs]
    obtain ⟨hempty, hu⟩ | ⟨f, hlast, hbit⟩ := ih hn hrun
    · obtain ⟨hnone, hseq⟩ | ⟨f, hsome, hbit, hseq⟩ := step_seq_cases hs hfirst
      · exact .inl ⟨by simp [hnone, hempty], hu.trans hseq⟩
      · exact .inr ⟨f, by simp [hsome, hempty], by rw [hu, hseq, hbit]⟩
    · exact .inr ⟨f, by simp [List.getLast?_append, hlast], hbit⟩

/-- Settles O37: the two cases of the run are the two cases of the last emitted header. -/
theorem seqHoldsTheLastEmittedBit : Obligations.SeqHoldsTheLastEmittedBit := by
  intro k s u hn hrun
  obtain ⟨hempty, hu⟩ | ⟨f, hlast, hbit⟩ := run_seq_cases hn hrun
  · rw [hempty]
    exact hu
  · rw [hlast, Option.bind_some, hbit, Option.getD_some]

end Sys2Proof.Machine

/-! A command issued again (20_memory.md R30), and the length of what ENCODE_IBLOCK emits (R31, R60). -/

namespace Sys2Proof.Machine

variable {s t : State} {r : ResultRecord} {mask : Mask}

/-! ## The length of an emitted frame -/

theorem fieldLen_eq (mask : Mask) (f : Field) (n : Nat) :
    fieldLen mask f n = fieldBytes f n * Claims.maskBit mask (fieldBit f) := by
  unfold fieldLen selects Claims.maskBit
  cases mask.getLsbD (fieldBit f) <;> simp

/-- `FLEN` is the sum of R42. -/
theorem flen_eq_flenSum (mask : Mask) (n : Nat) : flen mask n = Claims.flenSum mask n := by
  simp only [flen, Claims.flenSum, fieldLen_eq, fieldBytes, fieldBit]
  omega

/-- An ENCODE_IBLOCK whose record is not the length error passed both caps and emitted its frame (R59, R60). -/
theorem exec_encodeIblock_emitted (h : exec (.encodeIblock mask) s = .next t) (hr : t.result = some r)
    (hne : r ≠ errorRecord .invalidLength) :
    descriptorAdmitted s.operands.descriptor = true ∧ lengthsPass mask s.operands.descriptor ∧
      t = encodedState mask s := by
  obtain ⟨ha, ⟨-, rfl⟩ | ⟨hlen, ht⟩⟩ := exec_encodeIblock_next.mp h
  · exact absurd (Option.some.inj hr).symm hne
  · exact ⟨ha, hlen, ht⟩

/-- Settles O33: a record with a frame is no length error, so the frame has the length of R42, which passed the cap. -/
theorem emittedFramesHaveTheDeclaredLength : Obligations.EmittedFramesHaveTheDeclaredLength := by
  intro mask s t r f h hr hf
  have hne : r ≠ errorRecord .invalidLength := by rintro rfl; cases hf
  obtain ⟨ha, ⟨-, hmax⟩, rfl⟩ := exec_encodeIblock_emitted h hr hne
  obtain rfl := Option.some.inj hr
  obtain rfl := Option.some.inj hf
  rw [encodeFrame_length ha, ← flen_eq_flenSum]
  exact ⟨rfl, hmax⟩

/-! ## The same command again -/

/-- An encode does not read the record that stands at the port (R10, R16). -/
theorem encodedState_setResult (mask : Mask) (r : ResultRecord) (s : State) :
    encodedState mask (setResult r s) = encodedState mask s := rfl

/-- Without the header an encode finds again what the first one found (R30, R58). -/
theorem encodedState_encodedState (h : mask.getLsbD 0 = false) (s : State) :
    encodedState mask (encodedState mask s) = encodedState mask s := by
  have hseq : writeSeq (nextSeq mask s.seq) s = s := by rw [nextSeq_of_no_header h]; rfl
  have hfirst : encodedState mask s = setResult _ s := congrArg (setResult _) hseq
  rw [hfirst, encodedState_setResult, hfirst]

/-- An operation that does not touch `SEQ` gives the same record and state when it is issued again (R30). -/
theorem exec_again {i : Instr} (hi : touchesSeq i = false) (h : exec i s = .next t) : exec i t = .next t := by
  obtain hspan | rfl | ⟨mask, rfl⟩ := instr_cases i
  · obtain ⟨ha, rfl⟩ := (exec_next_iff_of_namesSpan hspan).mp h
    exact (exec_next_iff_of_namesSpan hspan).mpr ⟨ha, rfl⟩
  · obtain rfl := exec_encodeWtxAck_next.mp h
    exact exec_encodeWtxAck_next.mpr rfl
  · obtain ⟨ha, ⟨hlen, rfl⟩ | ⟨hlen, rfl⟩⟩ := exec_encodeIblock_next.mp h
    · exact exec_encodeIblock_next.mpr ⟨ha, .inl ⟨hlen, rfl⟩⟩
    · exact exec_encodeIblock_next.mpr ⟨ha, .inr ⟨hlen, (encodedState_encodedState hi s).symm⟩⟩

theorem nextSeq_ne (h : mask.getLsbD 0 = true) (v : BitVec 1) : nextSeq mask v ≠ v := by
  rw [nextSeq_of_header h]
  revert v
  decide

/-- Frames with a header show their sequence bits (R54), so other bits make other frames. -/
theorem encodeFrame_ne {v w : BitVec 1} (h : selects mask .header = true) (hvw : v ≠ w) (cfg : Config)
    (d : Descriptor) (did : Byte) : encodeFrame cfg mask v d did ≠ encodeFrame cfg mask w d did := by
  intro he
  have hbits := congrArg seqBitOf he
  rw [seqBitOf_encodeFrame h, seqBitOf_encodeFrame h] at hbits
  exact hvw (Option.some.inj hbits)

/-- Settles O19: an operation that leaves `SEQ` finds its own state again; a header encode passes both caps again, and
its frame shows the other sequence bit. -/
theorem commandsAreIdempotentButHeaderEncodes : Obligations.CommandsAreIdempotentButHeaderEncodes := by
  refine ⟨fun i s t => exec_again, fun mask s t r hsel h hr hok => ?_⟩
  have hne : r ≠ errorRecord .invalidLength := by rintro rfl; cases hok
  obtain ⟨ha, hlen, rfl⟩ := exec_encodeIblock_emitted h hr hne
  obtain rfl := Option.some.inj hr
  have hframe := encodeFrame_ne hsel (nextSeq_ne hsel (nextSeq mask s.seq)) s.config s.operands.descriptor
    s.operands.did
  exact ⟨encodedState mask (encodedState mask s), _, exec_encodeIblock_next.mpr ⟨ha, .inr ⟨hlen, rfl⟩⟩,
    encodedState_result, rfl, nextSeq_of_header hsel _, fun he => hframe (Option.some.inj he)⟩

end Sys2Proof.Machine

/-! Encoding (30_encoding.md): the encoder inverts the decoder on the legal words, the rows of the table and the illegal
words of R43; with it the frame length of R42 and the assembler of R45. -/

namespace Sys2Proof.Machine

variable {w : Word} {mask : Mask}

/-! ## The decoder and the encoder -/

/-- Settles O1: the case split over the operations of `decode_encode`, the format-CM words by their three fields. -/
theorem decodeInvertsEncode : Obligations.DecodeInvertsEncode := decode_encode

/-- A word accepted under format C0 is its operation code, so it is the operation's word (R38). -/
theorem encode_of_decodeC0 {i j : Instr} (hop : (opOf w).toNat = (encode i).toNat) (h : decodeC0 i w = .ok j) :
    encode j = w := by
  unfold decodeC0 at h
  split at h
  · next hupper =>
    cases h
    rw [opOf_toNat] at hop
    rw [upperBits_zero] at hupper
    apply BitVec.eq_of_toNat_eq
    omega
  · cases h

/-- A word with no bit above its mask is put together again from its operation code and mask (R39). -/
theorem encodeCM_maskOf {op : Word} (hop : w.toNat % 16 = op.toNat) (htop : w.toNat / 16384 = 0) :
    encodeCM op (maskOf w) = w := by
  apply BitVec.eq_of_toNat_eq
  rw [encodeCM_toNat op (maskOf w) (by omega), maskOf_toNat]
  omega

/-- A word accepted under format CM is the word of the operation with the mask it carries (R39). -/
theorem encode_of_decodeCM {i : Mask → Instr} {j : Instr} {op : Word} (hi : ∀ m, encode (i m) = encodeCM op m)
    (hop : (opOf w).toNat = op.toNat) (h : decodeCM i w = .ok j) : encode j = w := by
  unfold decodeCM at h
  split at h
  · next htop =>
    cases h
    rw [hi]
    exact encodeCM_maskOf (opOf_toNat w ▸ hop) ((topBits_zero w).mp htop)
  · cases h

/-- No bit of a legal word is dropped (R40). -/
theorem encode_of_decode {i : Instr} (h : decode w = .ok i) : encode i = w := by
  unfold decode at h
  split at h
  · exact encode_of_decodeC0 ‹_› h
  · exact encode_of_decodeC0 ‹_› h
  · exact encode_of_decodeCM (fun _ => rfl) ‹_› h
  · exact encode_of_decodeC0 ‹_› h
  · exact encode_of_decodeC0 ‹_› h
  · exact encode_of_decodeC0 ‹_› h
  · exact encode_of_decodeCM (fun _ => rfl) ‹_› h
  · cases h

/-- Settles O2: the fields the decoder reads are all the bits of a legal word. -/
theorem encodeInvertsDecode : Obligations.EncodeInvertsDecode := fun _ _ => encode_of_decode

/-- The legal words are the encoded operations, each word with one meaning (R40, R43). -/
theorem decode_ok_iff {i : Instr} : decode w = .ok i ↔ encode i = w :=
  ⟨encode_of_decode, fun h => h ▸ decode_encode i⟩

/-! ## The rows of the table -/

/-- The row mask of format C0 keeps every bit (R40). -/
theorem rowC0_iff {op : Word} : op = w ↔ w &&& 0xFFFF = op := by
  have hall : w &&& 0xFFFF = w := BitVec.and_allOnes
  rw [hall, eq_comm]

/-- The row mask of format CM keeps the operation code (R40). -/
theorem opOf_rowCM (w : Word) : opOf (w &&& 0xC00F) = opOf w := by
  have hall : opOf 0xC00F = BitVec.allOnes 4 := by decide
  calc opOf (w &&& 0xC00F) = opOf w &&& opOf 0xC00F := BitVec.extractLsb'_and
    _ = opOf w := by rw [hall, BitVec.and_allOnes]

/-- The row mask of format CM keeps the two reserved bits (R40). -/
theorem topBits_rowCM (w : Word) : (w &&& 0xC00F).extractLsb' 14 2 = w.extractLsb' 14 2 := by
  have hall : (0xC00F : Word).extractLsb' 14 2 = BitVec.allOnes 2 := by decide
  rw [BitVec.extractLsb'_and, hall, BitVec.and_allOnes]

/-- A word is in a format-CM row when its operation code is the row's and its reserved bits are zero (R39, R40). -/
theorem fieldsCM_of_row {op : Word} (hop : op.toNat < 16) (h : w &&& 0xC00F = op) :
    w.toNat % 16 = op.toNat ∧ w.toNat / 16384 = 0 := by
  rw [← opOf_toNat, ← topBits_zero, ← opOf_rowCM, ← topBits_rowCM, h, opOf_toNat, topBits_zero]
  omega

/-- The words of a format-CM row, with the mask operand in bits 13 to 4 (R39, R40). -/
theorem rowCM_iff {op : Word} (hop : op.toNat < 16) (hrow : op &&& 0xC00F = op) :
    encodeCM op mask = w ↔ w &&& 0xC00F = op ∧ mask.toNat = w.toNat / 16 % 1024 := by
  rw [← maskOf_toNat, BitVec.toNat_inj]
  constructor
  · rintro rfl
    obtain ⟨-, -, hmask⟩ := encodeCM_fields hop mask
    exact ⟨Laws.TableRow.encodeCM_row op mask hrow, hmask.symm⟩
  · rintro ⟨h, rfl⟩
    obtain ⟨hcode, htop⟩ := fieldsCM_of_row hop h
    exact encodeCM_maskOf hcode htop

/-- Settles O3: a row holds the words its operation encodes to. -/
theorem decodeFollowsTheRowsOfTheTable : Obligations.DecodeFollowsTheRowsOfTheTable := fun _ =>
  ⟨decode_ok_iff.trans rowC0_iff, decode_ok_iff.trans rowC0_iff,
    fun _ => decode_ok_iff.trans (rowCM_iff (by decide) (by decide)),
    decode_ok_iff.trans rowC0_iff, decode_ok_iff.trans rowC0_iff, decode_ok_iff.trans rowC0_iff,
    fun _ => decode_ok_iff.trans (rowCM_iff (by decide) (by decide))⟩

/-- Settles O5: each word run through the decoder. -/
theorem sampleWordsDecodeAsWritten : Obligations.SampleWordsDecodeAsWritten := by
  unfold Obligations.SampleWordsDecodeAsWritten
  decide

/-! ## The illegal words -/

/-- The illegal words are those the decoder rejects: the reserved operation codes, and each format's reserved bits
(R43). -/
theorem illegalWord_iff : Claims.illegalWord w ↔ ∃ why, decode w = .error why := by
  rw [decode_eq]
  unfold Claims.illegalWord Claims.c0Op Claims.cmOp
  split
  case h_8 =>
    simp only [imp_false] at *
    exact ⟨fun _ => ⟨_, rfl⟩, fun _ => by omega⟩
  all_goals
    split
    · exact ⟨fun _ => by omega, fun ⟨_, h⟩ => nomatch h⟩
    · exact ⟨fun _ => ⟨_, rfl⟩, fun _ => by omega⟩

/-- What the block answers to an illegal word, whatever the operands beside it (R43, R83). -/
theorem step_of_illegal {s : State} {c : Command} {rest : List HostEvent} {why : IllegalWord}
    (hp : s.pending = .command c :: rest) (hd : decode c.word = .error why) :
    step s = .next (setResult (errorRecord .illegalCommand) (takePorts c.operands rest s)) := by
  rw [step_of_event hp, takeEvent, commandStep, issueWord_illegal hd]
  rfl

/-- Settles O4: the clauses of R43 are the decoder's rejections, and a rejected word is answered before any operand is
read. -/
theorem illegalWordsReturnIllegalCommand : Obligations.IllegalWordsReturnIllegalCommand := by
  refine ⟨fun w => ?_, fun s c rest hp hw => ?_⟩
  · rw [illegalWord_iff]
    cases decode w <;> simp
  · obtain ⟨why, hd⟩ := illegalWord_iff.mp hw
    exact ⟨_, step_of_illegal hp hd, rfl, rfl, rfl, rfl⟩

/-! ## The frame length -/

theorem fieldLen_le (mask : Mask) (f : Field) (n : Nat) : fieldLen mask f n ≤ fieldBytes f n := by
  unfold fieldLen
  split <;> simp

/-- A frame has at most ten bytes beside its payload (R42). -/
theorem flen_le (mask : Mask) (n : Nat) : flen mask n ≤ n + 10 := by
  have h := fun f => fieldLen_le mask f n
  calc flen mask n ≤ 1 + 1 + 1 + 1 + 1 + 1 + 1 + n + 1 + 2 := by
        unfold flen
        gcongr <;> exact h _
    _ = n + 10 := by omega

/-- Settles O31: the sum of R42, its bound beside 246 payload bytes, and the mask of all fields, which reaches it. -/
theorem frameLengthIsTheSumOfItsFields : Obligations.FrameLengthIsTheSumOfItsFields :=
  ⟨flen_eq_flenSum, fun mask n hn => (flen_le mask n).trans (by omega), by decide⟩

/-! ## The assembler -/

/-- A line of format CM writes its mask, a line of format C0 none (R45). -/
theorem asmInstr_disassemble (i : Instr) (o : Operands) : asmInstr (disassemble i o) = some i := by
  cases i <;> rfl

/-- A line writes every operand its operation names, each on its own port (R17, R45). -/
theorem agreeOnNamed_disassemble (i : Instr) (o : Operands) :
    agreeOnNamed i o ((disassemble i o).operands.foldl setPort Operands.idle) := by
  cases i <;> simp [agreeOnNamed, disassemble, descriptorOperands, setPort]

/-- Settles O6: the line names its operation and its operands, and a format-CM word is `(MASK << 4) OR OP`. -/
theorem linesAssembleToTheirCommand : Obligations.LinesAssembleToTheirCommand := by
  refine ⟨fun i o => ⟨_, ?_, agreeOnNamed_disassemble i o⟩, fun m => ?_⟩
  · simp only [assemble, asmInstr_disassemble, Option.map_some]
  · simp [encode, encodeCM_toNat]

end Sys2Proof.Machine

/-! The CRC engine (40_crc.md R47 to R52): the byte step is eight shifts of the bit-serial form, and a shift loses
nothing; so only a span's own CRC leaves residue zero, and a changed byte changes the CRC. With it what R62 and R63 say
of the frames that end in a CRC. -/

namespace Sys2Proof.Machine

variable {s : State}

/-! ## The byte step and the bit-serial form -/

/-- Settles O23: the recurrence of R47 read on naturals, shift by shift. -/
theorem crcStepIsTheFourStepRecurrence : Obligations.CrcStepIsTheFourStepRecurrence := by
  intro ch crc a t
  unfold crcStep
  extract_lets b v
  have hv : v.toNat = t := by simp [v, b, t, a, lowByte, Nat.shiftLeft_eq]
  have hsmall : t % 65536 = t := by omega
  clear_value v
  simp [hv, hsmall, Nat.shiftLeft_eq, Nat.shiftRight_eq_div_pow]

/-- Settles O24: the CRC is a fold from 0x6363 (R48). -/
theorem crc16FoldsEachByte : Obligations.Crc16FoldsEachByte :=
  ⟨rfl, fun s b => crc16_append s [b]⟩

/-- A shift is linear over exclusive or (R49). -/
theorem crcShift_xor (a b : Word) : crcShift (a ^^^ b) = crcShift a ^^^ crcShift b := by
  unfold crcShift
  rw [BitVec.getLsbD_xor, BitVec.ushiftRight_xor_distrib]
  cases a.getLsbD 0 <;> cases b.getLsbD 0
  · rfl
  · simp [BitVec.xor_assoc]
  · simp only [Bool.true_xor, Bool.not_false, if_true, Bool.false_eq_true, if_false]
    ac_rfl
  · simp only [Bool.xor_self, Bool.false_eq_true, if_true, if_false]
    calc a >>> 1 ^^^ b >>> 1 = a >>> 1 ^^^ b >>> 1 ^^^ (0x8408 ^^^ 0x8408) := by simp
      _ = _ := by ac_rfl

theorem crcShifts_xor (n : Nat) (a b : Word) : crcShifts n (a ^^^ b) = crcShifts n a ^^^ crcShifts n b := by
  induction n generalizing a b with
  | zero => rfl
  | succ n ih => rw [crcShifts, crcShift_xor, ih]; rfl

/-- A shift loses nothing: its top bit tells whether 0x8408 was added, so what the low bit was. -/
theorem crcShift_injective : Function.Injective crcShift := by
  intro a b h
  have htop (w : Word) : (crcShift w).getLsbD 15 = w.getLsbD 0 := by
    unfold crcShift
    split <;> simp_all
  have hlow : a.getLsbD 0 = b.getLsbD 0 := by rw [← htop, h, htop]
  have hrest : a >>> 1 = b >>> 1 := by
    simp only [crcShift, hlow] at h
    split at h
    · exact (BitVec.xor_left_inj _).mp h
    · exact h
  ext i hi
  rcases i with _ | i
  · exact hlow
  · simpa [Nat.add_comm, BitVec.getLsbD_eq_getElem hi] using congrArg (BitVec.getLsbD · i) hrest

theorem crcShifts_injective (n : Nat) : Function.Injective (crcShifts n) := by
  induction n with
  | zero => exact Function.injective_id
  | succ n ih => exact ih.comp crcShift_injective

/-- Eight shifts bring a high byte down and add nothing. -/
theorem crcShifts_highByte (y : Byte) : crcShifts 8 (y.setWidth 16 <<< 8) = y.setWidth 16 := by
  revert y; decide

/-- On the zero accumulator, the four steps of R47 are the eight shifts of R49. -/
theorem crcStep_zero (x : Byte) : crcStep 0 x = crcShifts 8 (x.setWidth 16) := by
  revert x; decide

/-- Of the accumulator, the high byte is shifted down and the low byte added to the byte that comes in (R47). -/
theorem crcStep_split (acc : Word) (b : Byte) :
    crcStep acc b = (highByte acc).setWidth 16 ^^^ crcStep 0 (b ^^^ lowByte acc) := by
  have hhigh : acc >>> 8 = (highByte acc).setWidth 16 := by
    apply BitVec.eq_of_toNat_eq
    simp [highByte, Nat.shiftRight_eq_div_pow]
    omega
  simp [crcStep, hhigh, lowByte, BitVec.xor_assoc]

/-- The two bytes of a word as they stand in it do not overlap (R26). -/
theorem crcWord_eq_xor (x y : Byte) : crcWord x y = x.setWidth 16 ^^^ y.setWidth 16 <<< 8 := by
  ext i hi
  by_cases h : i < 8
  · simp [crcWord, h]
  · simp [crcWord, BitVec.getLsbD_of_ge x i (by omega)]

/-- The four steps of R47 are the eight shifts of R49, from every accumulator. -/
theorem crcStep_eq_serial (acc : Word) (b : Byte) : crcStep acc b = crcStepSerial acc b := by
  have hbytes : acc ^^^ b.setWidth 16 = (highByte acc).setWidth 16 <<< 8 ^^^ (b ^^^ lowByte acc).setWidth 16 := by
    conv_lhs => rw [← crcWord_bytes acc, crcWord_eq_xor]
    rw [BitVec.setWidth_xor]
    ac_rfl
  rw [crcStepSerial, hbytes, crcShifts_xor, crcShifts_highByte, crcStep_split, crcStep_zero]

theorem crc16Serial_eq (f : Span) : crc16Serial f = crc16 f := by
  rw [crc16Serial, crc16, crcFrom, funext₂ crcStep_eq_serial]

/-- Settles O25: the two forms agree byte by byte, and the check value is computed in the form of R47. -/
theorem bitSerialCrcAgrees : Obligations.BitSerialCrcAgrees :=
  ⟨crc16Serial_eq, (crc16Serial_eq _).trans (by decide)⟩

/-- A step loses nothing of the accumulator (R49). -/
theorem crcStep_left_injective (b : Byte) : Function.Injective (crcStep · b) := by
  intro c d h
  simp only [crcStep_eq_serial, crcStepSerial] at h
  exact (BitVec.xor_left_inj _).mp (crcShifts_injective 8 h)

/-- A step loses nothing of the byte it folds in (R49). -/
theorem crcStep_right_injective (c : Word) : Function.Injective (crcStep c) := by
  intro x y h
  simp only [crcStep_eq_serial, crcStepSerial] at h
  have hxy : x.setWidth 16 = y.setWidth 16 := (BitVec.xor_right_inj _).mp (crcShifts_injective 8 h)
  simpa using congrArg (BitVec.setWidth 8) hxy

theorem crcFrom_injective (f : Span) : Function.Injective (crcFrom · f) := by
  induction f with
  | nil => exact Function.injective_id
  | cons b f ih => exact ih.comp (crcStep_left_injective b)

/-! ## The residue of a span and its CRC -/

theorem loByte_eq (c : Word) : Claims.loByte c = lowByte c := by
  apply BitVec.eq_of_toNat_eq
  simp [Claims.loByte, lowByte]

theorem hiByte_eq (c : Word) : Claims.hiByte c = highByte c := by
  apply BitVec.eq_of_toNat_eq
  simp [Claims.hiByte, highByte, Nat.shiftRight_eq_div_pow]

@[simp] theorem lowByte_crcWord (x y : Byte) : lowByte (crcWord x y) = x := by
  ext i hi
  simp [lowByte, crcWord, hi, show i < 16 by omega]

@[simp] theorem highByte_crcWord (x y : Byte) : highByte (crcWord x y) = y := by
  ext i hi
  simp [highByte, crcWord, show 8 + i < 16 by omega, BitVec.getLsbD_eq_getElem hi]

/-- Two bytes bring the accumulator to zero exactly when they are the accumulator, low byte first (R26, R50). -/
theorem crcFrom_pair_eq_zero_iff {c : Word} {x y : Byte} : crcFrom c [x, y] = 0 ↔ crcWord x y = c := by
  have hfold : crcFrom c [x, y] = crcShifts 8 (crcShifts 8 (c ^^^ x.setWidth 16) ^^^ y.setWidth 16) := by
    simp only [crcFrom, List.foldl, crcStep_eq_serial, crcStepSerial]
  calc crcFrom c [x, y] = 0
      ↔ crcShifts 8 (c ^^^ x.setWidth 16) ^^^ y.setWidth 16 = 0 := by
        rw [hfold]
        exact (crcShifts_injective 8).eq_iff' (by decide)
    _ ↔ crcShifts 8 (c ^^^ x.setWidth 16) = crcShifts 8 (y.setWidth 16 <<< 8) := by
        rw [crcShifts_highByte]
        exact BitVec.xor_eq_zero_iff
    _ ↔ c ^^^ x.setWidth 16 = y.setWidth 16 <<< 8 := (crcShifts_injective 8).eq_iff
    _ ↔ c = y.setWidth 16 <<< 8 ^^^ x.setWidth 16 := by
        rw [← BitVec.xor_left_inj (x.setWidth 16), BitVec.xor_assoc, BitVec.xor_self, BitVec.xor_zero]
    _ ↔ crcWord x y = c := by rw [crcWord_eq_xor, BitVec.xor_comm, eq_comm]

/-- A span and two more bytes have residue zero exactly when the two are the span's CRC (R50). -/
theorem crc16_append_pair_eq_zero_iff {b : Span} {x y : Byte} :
    crc16 (b ++ [x, y]) = 0 ↔ x = lowByte (crc16 b) ∧ y = highByte (crc16 b) := by
  rw [crc16_append, crcFrom_pair_eq_zero_iff]
  constructor
  · intro h
    simp [← h]
  · rintro ⟨rfl, rfl⟩
    exact crcWord_bytes _

/-- A span with its CRC appended has residue zero (R50, R57). -/
theorem crc16_append_crcBytes (b : Span) : crc16 (b ++ crcBytes (crc16 b)) = 0 :=
  crc16_append_pair_eq_zero_iff.mpr ⟨rfl, rfl⟩

/-- Settles O26: the span's own CRC is the pair that leaves zero. -/
theorem ownCrcLeavesZeroResidue : Obligations.OwnCrcLeavesZeroResidue := by
  intro b
  rw [loByte_eq, hiByte_eq]
  exact crc16_append_crcBytes b

/-- Settles O27: it is the only such pair. -/
theorem onlyTheOwnCrcLeavesZeroResidue : Obligations.OnlyTheOwnCrcLeavesZeroResidue := by
  intro b x y h
  rw [loByte_eq, hiByte_eq]
  exact crc16_append_pair_eq_zero_iff.mp h

/-! ## CRC_COMPUTE and CRC_CHECK -/

theorem spanAdmitted_iff {f : Span} : spanAdmitted f = true ↔ f.length ≤ 255 := decide_eq_true_iff

/-- Settles O28: the record of R51, and its corner cases by the residue law and by computation. -/
theorem crcComputeResult : Obligations.CrcComputeResult :=
  ⟨rfl, fun _ h => exec_crcCompute_next.mpr ⟨spanAdmitted_iff.mpr h, rfl⟩, rfl, ownCrcLeavesZeroResidue, by decide,
    by decide⟩

/-- A span of residue zero is answered with OK (R52). -/
theorem exec_crcCheck_of_residue_zero (hlen : s.operands.span.length ≤ 255) (h : crc16 s.operands.span = 0) :
    exec .crcCheck s = .next (setResult { res := .ok, crc := some 0 } s) := by
  refine exec_crcCheck_next.mpr ⟨spanAdmitted_iff.mpr hlen, ?_⟩
  simp [crcCheckRecord, residueZero, h]

/-- A span of another residue is answered with CRC_MISMATCH and the residue (R52). -/
theorem exec_crcCheck_of_residue_ne_zero (hlen : s.operands.span.length ≤ 255) (h : crc16 s.operands.span ≠ 0) :
    exec .crcCheck s = .next (setResult { res := .crcMismatch, crc := some (crc16 s.operands.span) } s) := by
  refine exec_crcCheck_next.mpr ⟨spanAdmitted_iff.mpr hlen, ?_⟩
  simp only [crcCheckRecord, residueZero, decide_eq_true_iff, if_neg h]

/-- Settles O29: the two outcomes by the residue, and the two spans of R52 by computation. -/
theorem crcCheckResult : Obligations.CrcCheckResult :=
  ⟨rfl, fun _ => exec_crcCheck_of_residue_zero, fun _ => exec_crcCheck_of_residue_ne_zero, by decide, by decide⟩

/-- Changing one byte of a span changes its CRC, since no step loses anything. -/
theorem crc16_modify_ne {f : Span} {i : Nat} {g : Byte → Byte} (hi : i < f.length) (hg : ∀ b, g b ≠ b) :
    crc16 (f.modify i g) ≠ crc16 f := by
  intro h
  have hf : f = f.take i ++ f[i] :: f.drop (i + 1) := by simp
  rw [List.modify_eq_take_cons_drop hi] at h
  conv_rhs at h => rw [hf]
  rw [crc16_append, crc16_append] at h
  exact hg _ (crcStep_right_injective _ (crcFrom_injective _ h))

/-- Settles O30: a flipped bit changes its byte, so the CRC is no longer zero. -/
theorem crcCheckCatchesEverySingleBitError : Obligations.CrcCheckCatchesEverySingleBitError := by
  intro s f i j hf hlen hi hj hs
  have hflip (b : Byte) : b ^^^ BitVec.twoPow 8 j ≠ b := by
    intro h
    have hzero : BitVec.twoPow 8 j = 0 := (BitVec.xor_right_inj b).mp (h.trans BitVec.xor_zero.symm)
    simpa [hj] using congrArg (BitVec.getLsbD · j) hzero
  have hne : crc16 s.operands.span ≠ 0 := by
    rw [hs, ← hf]
    exact crc16_modify_ne hi hflip
  exact ⟨_, hne, exec_crcCheck_of_residue_ne_zero (by rw [hs, List.length_modify]; exact hlen) hne⟩

/-! ## Frames that end in a CRC -/

/-- Settles O40: an emitted frame is a body with its own CRC, and no longer than the cap (R57, R62). -/
theorem emittedFramesPassTheCrcCheck : Obligations.EmittedFramesPassTheCrcCheck := by
  intro mask s t r f hcrc h hr hf
  have hlen : f.length ≤ 255 := (emittedFramesHaveTheDeclaredLength mask s t r f h hr hf).2
  have hres : crc16 f = 0 := by
    have hne : r ≠ errorRecord .invalidLength := by rintro rfl; cases hf
    obtain ⟨-, -, rfl⟩ := exec_encodeIblock_emitted h hr hne
    obtain rfl := Option.some.inj hr
    obtain rfl := Option.some.inj hf
    rw [encodeFrame, emit, if_pos (show selects mask .crc = true from hcrc), crc16_append_crcBytes]
  refine ⟨hres, ?_⟩
  rintro u rfl
  exact exec_crcCheck_of_residue_zero hlen hres

/-- Settles O42: the trailing bytes of an intact request are the CRC that the acknowledgement carries (R50, R63). -/
theorem wtxAckEchoesAnIntactRequest : Obligations.WtxAckEchoesAnIntactRequest := by
  intro s lo hi h
  obtain ⟨rfl, rfl⟩ := crc16_append_pair_eq_zero_iff (b := [0xF2, s.operands.fwt]).mp h
  exact exec_encodeWtxAck_next.mpr rfl

end Sys2Proof.Machine

/-! The Frame Codec (41_frame_codec.md R53 to R63): what a frame is made of, when it is refused, and what its header
tells a receiver (R54, R61, R92) and the classifier (R64 to R70). -/

namespace Sys2Proof.Machine

variable {s t : State} {r : ResultRecord} {k : Nat} {mask : Mask}

/-! ## Alternation of the emitted bits -/

theorem iblocksEmitted_of_refused {why : Refusal} (h : step s = .refused why) : iblocksEmitted (k + 1) s = [] := by
  rw [iblocksEmitted, h]

/-- Settles O36, by induction on the run: each step keeps "the next emitted bit is the other bit than `SEQ`". -/
theorem emittedSequenceBitsAlternate : Obligations.EmittedSequenceBitsAlternate := by
  intro k s hn
  induction k generalizing s with
  | zero => trivial
  | succ k ih =>
    cases hs : step s with
    | next t =>
      obtain ⟨hfirst, hn⟩ := noReset_succ hn hs
      have htail : Alternates t.seq (iblocksEmitted k t) := ih t hn
      rw [iblocksEmitted_succ hs]
      obtain ⟨hnone, hseq⟩ | ⟨f, hsome, hbit, hseq⟩ := step_seq_cases hs hfirst
      · rw [hnone, ← hseq]
        exact htail
      · rw [hsome]
        exact ⟨hbit, hseq ▸ htail⟩
    | fault why => cases why
    | refused why =>
      rw [iblocksEmitted_of_refused hs]
      trivial

/-! ## The header -/

/-- The header's value: 2, the sequence bit, and 8 where the parameter and the mask ask for it (R54). -/
theorem headerByte_eq_headerOf (cfg : Config) (mask : Mask) (v : BitVec 1) :
    headerByte cfg mask v = Claims.headerOf cfg mask v := by
  have hdid : selects mask .deviceId = mask.getLsbD 1 := rfl
  unfold headerByte Claims.headerOf
  rw [hdid]
  cases cfg.hdrDidBit <;> cases mask.getLsbD 1 <;> revert v <;> decide

theorem headerByte_parity (cfg : Config) (mask : Mask) (v : BitVec 1) :
    (headerByte cfg mask v).toNat % 2 = v.toNat := by
  simpa using congrArg BitVec.toNat (headerByte_seqBit cfg mask v)

theorem headerByte_default_zero (mask : Mask) : headerByte Config.default mask 0 = 0x02 := by
  simp [headerByte, Config.default]

/-- An encoded header is that of an information block (R54, R64). -/
theorem blockKind_headerByte (cfg : Config) (mask : Mask) (v : BitVec 1) :
    blockKind (headerByte cfg mask v) = .information := by
  unfold headerByte
  cases cfg.hdrDidBit && selects mask .deviceId <;> revert v <;> decide

/-- A frame with the header selected begins with it (R53). -/
theorem encodeFrame_of_header (h : selects mask .header = true) (cfg : Config) (v : BitVec 1) (d : Descriptor)
    (did : Byte) : ∃ rest, encodeFrame cfg mask v d did = headerByte cfg mask v :: rest := by
  simp [encodeFrame, frameBody, emit, h]

/-! ## The emitted frame -/

theorem payloadField_eq_payloadOf (d : Descriptor) : payloadField d = Claims.payloadOf d := by
  unfold payloadField Claims.payloadOf
  cases d.payload <;> rfl

theorem expectedLengthField_eq (d : Descriptor) : expectedLengthField d = d.le.getD 0x00 := by
  unfold expectedLengthField
  cases d.le <;> rfl

/-- The body is the nine fields in the order of their mask bits (R41, R53). -/
theorem frameBody_eq_bodyOf (cfg : Config) (mask : Mask) (v : BitVec 1) (d : Descriptor) (did : Byte) :
    frameBody cfg mask v d did = Claims.bodyOf cfg mask v d did := by
  unfold frameBody Claims.bodyOf
  rw [headerByte_eq_headerOf, payloadField_eq_payloadOf, expectedLengthField_eq,
    show List.range 9 = [0, 1, 2, 3, 4, 5, 6, 7, 8] from rfl]
  simp only [List.flatMap_cons, List.flatMap_nil, List.append_nil]
  rfl

/-- The frame is the body, and its CRC where selected (R57). -/
theorem encodeFrame_eq_frameOf (cfg : Config) (mask : Mask) (v : BitVec 1) (d : Descriptor) (did : Byte) :
    encodeFrame cfg mask v d did = Claims.frameOf cfg mask v d did := by
  have hcrc : selects mask .crc = mask.getLsbD 9 := rfl
  unfold encodeFrame Claims.frameOf Claims.withCrc emit
  rw [frameBody_eq_bodyOf, hcrc, loByte_eq, hiByte_eq]
  split
  · rfl
  · exact List.append_nil _

/-- The two caps of R59, on the sum of R42. -/
theorem lengthsPass_iff {d : Descriptor} :
    lengthsPass mask d ↔ d.lc.toNat ≤ 246 ∧ Claims.flenSum mask d.lc.toNat ≤ 255 := by
  rw [lengthsPass, flen_eq_flenSum]

/-- Settles O32: within both caps the encode emits its frame, which is that of R53 to R57. -/
theorem encodeIblockEmitsTheSelectedFields : Obligations.EncodeIblockEmitsTheSelectedFields := by
  intro mask s hp hlc hlen
  rw [← encodeFrame_eq_frameOf]
  have hpass : lengthsPass mask s.operands.descriptor := lengthsPass_iff.mpr ⟨hlc, hlen⟩
  exact exec_encodeIblock_next.mpr ⟨(descriptorAdmitted_iff _).mpr hp, .inr ⟨hpass, rfl⟩⟩

/-! ## The header of an emitted frame -/

/-- A header encode that is no length error leaves the toggled bit in `SEQ`, and its frame begins with the header of
that bit (R54, R58). -/
theorem exec_headerEncode_emitted (hsel : mask.getLsbD 0 = true) (h : exec (.encodeIblock mask) s = .next t)
    (hr : t.result = some r) (hne : r ≠ errorRecord .invalidLength) :
    t.seq = ~~~s.seq ∧ ∃ rest, r.frame = some (headerByte s.config mask t.seq :: rest) := by
  obtain ⟨-, -, rfl⟩ := exec_encodeIblock_emitted h hr hne
  obtain rfl := Option.some.inj hr
  obtain ⟨rest, hframe⟩ := encodeFrame_of_header hsel s.config (nextSeq mask s.seq) s.operands.descriptor
    s.operands.did
  exact ⟨nextSeq_of_header hsel s.seq, rest, congrArg some hframe⟩

/-- Settles O34: an emitted header carries the new `SEQ`; and only a header encode that answers OK changes `SEQ`. -/
theorem seqTogglesWithEachEmittedHeader : Obligations.SeqTogglesWithEachEmittedHeader := by
  intro mask s t r h hr
  constructor
  · intro hok hsel
    have hne : r ≠ errorRecord .invalidLength := by rintro rfl; cases hok
    obtain ⟨hseq, rest, hframe⟩ := exec_headerEncode_emitted hsel h hr hne
    exact ⟨hseq, _, rest, hframe, headerByte_parity ..⟩
  · intro hother
    obtain hseq | ⟨mask', r', hi, hsel, hr', hok, -⟩ := exec_seq h
    · exact hseq
    · obtain rfl := Instr.encodeIblock.inj hi
      obtain rfl := Option.some.inj (hr.symm.trans hr')
      obtain hres | hno := hother
      · exact absurd hok hres
      · cases hsel.symm.trans hno

/-- Settles O39: `SEQ` is 1 after reset, so the toggled bit is 0, and the default parameter puts no bit beside it
(R6, R54, R90). -/
theorem firstHeaderAfterResetIsTwo : Obligations.FirstHeaderAfterResetIsTwo := by
  intro mask o t r hsel h hr hok
  have hne : r ≠ errorRecord .invalidLength := by rintro rfl; cases hok
  obtain ⟨hseq, rest, hframe⟩ := exec_headerEncode_emitted hsel h hr hne
  have hzero : t.seq = 0 := hseq.trans (show ~~~State.reset.seq = 0 by decide)
  rw [hzero] at hframe
  exact ⟨hzero, rest, hframe.trans (congrArg (fun h => some (h :: rest)) (headerByte_default_zero mask))⟩

/-! ## The length errors -/

/-- A frame of all fields with 246 payload bytes is the only one above 255 bytes: each of the ten fields left out, and
each payload byte less, takes at least a byte off 256 (R42, R59). -/
theorem flenSum_above_cap_iff {n : Nat} (hn : n ≤ 246) :
    255 < Claims.flenSum mask n ↔ (∀ i < 10, Claims.maskBit mask i = 1) ∧ n = 246 := by
  have hle (i : Nat) : Claims.maskBit mask i ≤ 1 := Bool.toNat_le _
  constructor
  · intro h
    unfold Claims.flenSum at h
    have hpayload : Claims.maskBit mask 7 = 1 := by
      by_contra h7
      have hzero : Claims.maskBit mask 7 = 0 := by grind
      rw [hzero] at h
      grind
    rw [hpayload] at h
    refine ⟨fun i hi => ?_, by grind⟩
    interval_cases i <;> grind
  · rintro ⟨hall, rfl⟩
    simp [Claims.flenSum, hall]

/-- The mask of all fields has its ten bits set (R41). -/
theorem mask_eq_all_iff : mask = 0x3FF ↔ ∀ i < 10, Claims.maskBit mask i = 1 := by
  constructor
  · rintro rfl
    decide
  · intro h
    refine BitVec.eq_of_getLsbD_eq fun i hi => ?_
    have hall : ∀ j < 10, (0x3FF : Mask).getLsbD j = true := by decide
    exact (Bool.toNat_eq_one.mp (h i hi)).trans (hall i hi).symm

/-- Settles O35: above either cap the encode answers the length error, and only the frame of all fields with 246
payload bytes passes the first cap and not the second. -/
theorem encodeIblockLengthErrors : Obligations.EncodeIblockLengthErrors := by
  refine ⟨fun mask s hp hlen => ?_, fun mask n hn => ?_⟩
  · have hfail : ¬ lengthsPass mask s.operands.descriptor := by
      rw [lengthsPass_iff]
      omega
    exact exec_encodeIblock_next.mpr ⟨(descriptorAdmitted_iff _).mpr hp, .inl ⟨hfail, rfl⟩⟩
  · rw [flenSum_above_cap_iff hn, mask_eq_all_iff]

/-! ## What the classifier reads of an emitted frame -/

/-- Settles O41: the one record of the operation, and the example by computation. -/
theorem wtxAckResult : Obligations.WtxAckResult := by
  refine ⟨rfl, fun s => ?_, by decide⟩
  rw [loByte_eq, hiByte_eq]
  exact exec_encodeWtxAck_next.mpr rfl

/-- The classifier's record of an acknowledgement (R63, R67 to R70). -/
theorem classifyRecord_wtxAckFrame (fwt : Byte) : classifyRecord (wtxAckFrame fwt) =
    { res := .ok
      hdr := some 0xF2
      kind := some .supervisory
      sub := some .wtx
      fwt := some fwt
      crc4Ok := some true } := by
  have hcrc : crc4Ok (wtxAckFrame fwt) = some true :=
    congrArg some (decide_eq_true (crc16_append_crcBytes [wtxAckHdr, fwt]))
  rw [← hcrc]
  rfl

/-- Settles O45: the classifier's span is the acknowledgement, four bytes. -/
theorem acknowledgementsClassifyAsWtx : Obligations.AcknowledgementsClassifyAsWtx := by
  intro s t u r f h hr hf hspan
  obtain rfl := exec_encodeWtxAck_next.mp h
  obtain rfl := Option.some.inj hr
  obtain rfl := Option.some.inj hf
  have ha : spanAdmitted u.operands.span = true := by rw [hspan]; rfl
  refine exec_classify_next.mpr ⟨ha, ?_⟩
  rw [hspan, classifyRecord_wtxAckFrame]
  rfl

/-- Settles O46: the classifier's span fits the cap and begins with an information header, whose bit 0 is the new
`SEQ`. -/
theorem encodedBlocksClassifyAsInformation : Obligations.EncodedBlocksClassifyAsInformation := by
  rintro mask s t u r f hsel h hr hf rfl
  have hlen : u.operands.span.length ≤ 255 := (emittedFramesHaveTheDeclaredLength mask s t r _ h hr hf).2
  have hne : r ≠ errorRecord .invalidLength := by rintro rfl; cases hf
  obtain ⟨-, rest, hframe⟩ := exec_headerEncode_emitted hsel h hr hne
  have hspan : u.operands.span = headerByte s.config mask t.seq :: rest := Option.some.inj (hf.symm.trans hframe)
  have hkind := blockKind_headerByte s.config mask t.seq
  refine ⟨_, _, exec_classify_next.mpr ⟨spanAdmitted_iff.mpr hlen, rfl⟩, setResult_result .., ?_⟩
  simp [hspan, classifyRecord, blockNumber, subType, hkind, headerByte_seqBit]

end Sys2Proof.Machine

/-! The Block Classifier and header parser (42_block_classifier.md R64 to R73): the round trip of DECODE_IBLOCK, the
header CLASSIFY reads, and the fields of DECODE_IBLOCK by their positions. -/

namespace Sys2Proof.Machine

variable {mask : Mask}

/-! ## The round trip -/

/-- The payload adds its bytes to the frame of the other fields (R42). -/
theorem flen_eq_add_payload (mask : Mask) (n : Nat) : flen mask n = flen mask 0 + fieldLen mask .payload n := by
  simp only [flen_eq_flenSum, fieldLen_eq, Claims.flenSum, fieldBytes, fieldBit]
  omega

/-- Of a frame's length and its `D_LC`, where it has one, the decoder finds the payload length that went in (R71). -/
theorem decodedPayloadLen_flen (mask : Mask) (lc : Byte) :
    decodedPayloadLen mask (if selects mask .length then some lc else none) (flen mask lc.toNat) =
      fieldLen mask .payload lc.toNat := by
  rw [flen_eq_add_payload]
  unfold decodedPayloadLen
  cases hpay : selects mask .payload with
  | false => simp [fieldLen, hpay]
  | true =>
    cases selects mask .length with
    | true => simp [fieldLen, hpay, fieldBytes]
    | false => simp

/-- A payload of the length its mask and `LC` ask for is split off whole (R72). -/
theorem splitPayload_fieldLen_emit {p : Span} {n : Nat} (hp : p.length = n) (rest : Span) :
    splitPayload mask (fieldLen mask .payload n) (emit mask .payload p ++ rest) =
      (if selects mask .payload then some p else none, rest) := by
  rw [← splitPayload_emit, hp]
  unfold splitPayload fieldLen
  split <;> rfl

/-- An emitted frame passes the residue test of a selected CRC (R57, R62, R72). -/
theorem decodeResult_encodeFrame (cfg : Config) (mask : Mask) (v : BitVec 1) (d : Descriptor) (did : Byte) :
    decodeResult mask (encodeFrame cfg mask v d did) = .ok := by
  unfold decodeResult encodeFrame emit
  cases selects mask .crc with
  | false => rfl
  | true => simp [residueZero, crc16_append_crcBytes]

/-- The CRC of a frame that carries one is that of all its bytes but the last two (R57). -/
theorem crc16_frameBody (hcrc : selects mask .crc = true) (cfg : Config) (v : BitVec 1) (d : Descriptor) (did : Byte) :
    crc16 (frameBody cfg mask v d did) =
      crc16 ((encodeFrame cfg mask v d did).take ((encodeFrame cfg mask v d did).length - 2)) := by
  simp [encodeFrame, emit, hcrc]

/-- What the header parser reads of an emitted frame under its own mask (R73). -/
theorem decodeRecord_encodeFrame {d : Descriptor} (ha : descriptorAdmitted d = true) (hlc : d.lc.toNat ≤ maxPayload)
    (cfg : Config) (v : BitVec 1) (did : Byte) :
    decodeRecord mask (encodeFrame cfg mask v d did) =
      { res := .ok
        dHdr := if selects mask .header then some (headerByte cfg mask v) else none
        dDid := if selects mask .deviceId then some did else none
        dCla := if selects mask .cla then some d.cla else none
        dIns := if selects mask .ins then some d.ins else none
        dP1 := if selects mask .p1 then some d.p1 else none
        dP2 := if selects mask .p2 then some d.p2 else none
        dLc := if selects mask .length then some d.lc else none
        dPayload := if selects mask .payload then some (payloadField d) else none
        dLe := if selects mask .expectedLength then some (expectedLengthField d) else none
        dCrc := if selects mask .crc then some (crc16 (frameBody cfg mask v d did)) else none } := by
  have hlen := encodeFrame_length ha cfg mask v did
  have hsum := flen_eq_add_payload mask d.lc.toNat
  have hmax : fieldLen mask .payload d.lc.toNat ≤ maxPayload := (fieldLen_le ..).trans hlc
  unfold decodeRecord
  rw [hlen, decodeResult_encodeFrame, if_neg (by omega)]
  conv in splitByte mask .header _ => rw [encodeFrame]
  simp only [frameBody, List.append_assoc, splitByte_emit, decodedPayloadLen_flen,
    splitPayload_fieldLen_emit (payloadField_length ha), splitCrc_emit]
  rw [if_neg (by omega)]

/-- Settles O48: the fields an encode emitted are split off its frame one after the other, at their declared lengths. -/
theorem decodeIblockInvertsEncodeIblock : Obligations.DecodeIblockInvertsEncodeIblock := by
  rintro mask s t u r f h hr hf rfl
  have hcap : u.operands.span.length ≤ 255 := (emittedFramesHaveTheDeclaredLength mask s t r _ h hr hf).2
  have hne : r ≠ errorRecord .invalidLength := by rintro rfl; cases hf
  obtain ⟨ha, ⟨hlc, -⟩, rfl⟩ := exec_encodeIblock_emitted h hr hne
  obtain rfl := Option.some.inj hr
  have hspan := Option.some.inj hf
  refine exec_decodeIblock_next.mpr ⟨spanAdmitted_iff.mpr hcap, ?_⟩
  have hcrc (hsel : selects mask .crc = true) := crc16_frameBody hsel s.config (nextSeq mask s.seq)
    s.operands.descriptor s.operands.did
  rw [← hspan, decodeRecord_encodeFrame ha hlc, headerByte_eq_headerOf, payloadField_eq_payloadOf,
    expectedLengthField_eq, ite_congr rfl (fun hsel => congrArg some (hcrc hsel)) (fun _ => rfl)]
  rfl

/-! ## What CLASSIFY reads of a header -/

/-- The top two bits of the header by its value (R64, R65). -/
theorem blockKind_eq_kindOf (h : Byte) : blockKind h = Claims.kindOf h := by
  have htop : (h.extractLsb' 6 2).toNat = h.toNat / 64 := by
    rw [BitVec.extractLsb'_toNat, Nat.shiftRight_eq_div_pow]
    omega
  unfold blockKind Claims.kindOf
  rw [htop]
  split
  · rw [if_pos (by omega)]
  · rw [if_neg (by omega), if_pos (by omega)]
  · rw [if_neg (by omega), if_neg (by omega), if_pos (by omega)]
  · next h0 h1 h2 =>
    simp only [imp_false] at h0 h1 h2
    rw [if_neg (by omega), if_neg (by omega), if_neg (by omega)]

/-- The block number is bit 0 of the header, for kinds I and R only (R66). -/
theorem blockNumber_eq (h : Byte) : blockNumber h =
    if Claims.kindOf h = .information ∨ Claims.kindOf h = .receiveReady then some (BitVec.ofNat 1 (h.toNat % 2))
    else none := by
  have hbit : h.extractLsb' 0 1 = BitVec.ofNat 1 (h.toNat % 2) := by
    apply BitVec.eq_of_toNat_eq
    simp
  unfold blockNumber
  rw [hbit, blockKind_eq_kindOf]
  split <;> simp_all

/-- The sub-type is bits 5 and 4 of the header, for kind S only (R67). -/
theorem subType_eq (h : Byte) : subType h =
    if Claims.kindOf h = .supervisory then some (Claims.subOf h) else none := by
  have hbits : (h.extractLsb' 4 2).toNat = h.toNat / 16 % 4 := by
    rw [BitVec.extractLsb'_toNat, Nat.shiftRight_eq_div_pow]
  unfold subType Claims.subOf
  rw [hbits, blockKind_eq_kindOf]
  split
  · split <;> simp_all
  all_goals simp_all

/-- The FWT byte is the second byte of a request, where there is one (R68). -/
theorem fwtByte_cons (h : Byte) (rest : Span) : fwtByte h (h :: rest) =
    if Claims.kindOf h = .supervisory ∧ Claims.subOf h = .wtx then rest.head? else none := by
  have hsub : subType h = some .wtx ↔ Claims.kindOf h = .supervisory ∧ Claims.subOf h = .wtx := by
    rw [subType_eq]
    split <;> simp_all
  have hsecond : (h :: rest)[1]? = rest.head? := by rw [List.getElem?_cons_succ, List.head?_eq_getElem?]
  rw [fwtByte, hsecond]
  exact ite_congr (propext hsub) (fun _ => rfl) (fun _ => rfl)

/-- Settles O43: each field of the record of R70 is read off the header's value. -/
theorem classifyReadsTheHeader : Obligations.ClassifyReadsTheHeader := by
  intro s h rest hspan hlen
  have ha : spanAdmitted s.operands.span = true := spanAdmitted_iff.mpr (by rw [hspan, List.length_cons]; omega)
  refine exec_classify_next.mpr ⟨ha, ?_⟩
  rw [hspan, classifyRecord, blockKind_eq_kindOf, blockNumber_eq, subType_eq, fwtByte_cons]
  rfl

/-- Settles O44: the empty span is admitted, and its record is the error. -/
theorem classifyRejectsAnEmptySpan : Obligations.ClassifyRejectsAnEmptySpan :=
  ⟨rfl, fun _ h => exec_classify_next.mpr ⟨by rw [h]; rfl, by rw [h]; rfl⟩⟩

/-! ## The split by positions -/

/-- A one-byte field split off at position `p` is the byte there, and the next field starts after it (R72). -/
theorem splitByte_drop (mask : Mask) (f : Field) (span : Span) (p : Nat) :
    splitByte mask f (span.drop p) =
      (if selects mask f then span[p]? else none, span.drop (p + Claims.maskBit mask (fieldBit f))) := by
  unfold splitByte Claims.maskBit
  cases hsel : selects mask f with
  | false =>
    rw [selects] at hsel
    simp [hsel]
  | true =>
    rw [selects] at hsel
    simp [hsel]

theorem fieldPos_succ (mask : Mask) (i : Nat) :
    Claims.fieldPos mask (i + 1) = Claims.fieldPos mask i + Claims.maskBit mask i := by
  simp [Claims.fieldPos, List.range_succ]

/-- The fields up to the payload are split off one after the other (R72). -/
theorem splitByte_fieldPos {f : Field} {i : Nat} (hi : fieldBit f = i) (mask : Mask) (span : Span) :
    splitByte mask f (span.drop (Claims.fieldPos mask i)) =
      (Claims.byteField mask span i, span.drop (Claims.fieldPos mask (i + 1))) := by
  subst hi
  rw [splitByte_drop, fieldPos_succ]
  rfl

theorem splitPayload_drop {n : Nat} (hn : selects mask .payload = false → n = 0) (span : Span) (p : Nat) :
    splitPayload mask n (span.drop p) =
      (if selects mask .payload then some ((span.drop p).take n) else none, span.drop (p + n)) := by
  unfold splitPayload
  split <;> simp_all

/-- The fixed bytes of R71: the fields before the payload, the expected length and the CRC. -/
theorem flen_zero (mask : Mask) :
    flen mask 0 = Claims.fieldPos mask 7 + Claims.maskBit mask 8 + 2 * Claims.maskBit mask 9 := by
  have hzero : Claims.fieldPos mask 0 = 0 := rfl
  simp only [flen_eq_flenSum, Claims.flenSum, fieldPos_succ, hzero]
  omega

/-- Where the fixed bytes are there, `D_LC` is read inside the span, and the decoder finds the payload length of R71. -/
theorem decodedPayloadLen_byteField {span : Span} (h : flen mask 0 ≤ span.length) :
    decodedPayloadLen mask (Claims.byteField mask span 6) span.length = Claims.payloadLen mask span := by
  have hsel : selects mask .payload = mask.getLsbD 7 := rfl
  unfold decodedPayloadLen Claims.payloadLen Claims.byteField
  rw [hsel, flen_eq_flenSum]
  cases hlc : mask.getLsbD 6 with
  | false => rfl
  | true =>
    have hin : Claims.fieldPos mask 6 < span.length := by
      have hbit : Claims.maskBit mask 6 = 1 := congrArg Bool.toNat hlc
      rw [flen_zero, fieldPos_succ mask 6] at h
      omega
    simp [hin]

/-- The CRC of two bytes on their values, the earlier one low (R26). -/
theorem crcWord_eq_ofNat (lo hi : Byte) : crcWord lo hi = BitVec.ofNat 16 (lo.toNat + 256 * hi.toNat) := by
  have hlo : lowByte (BitVec.ofNat 16 (lo.toNat + 256 * hi.toNat)) = lo := by
    rw [← loByte_eq]
    apply BitVec.eq_of_toNat_eq
    simp [Claims.loByte]
    omega
  have hhi : highByte (BitVec.ofNat 16 (lo.toNat + 256 * hi.toNat)) = hi := by
    rw [← hiByte_eq]
    apply BitVec.eq_of_toNat_eq
    simp [Claims.hiByte]
    omega
  have h := crcWord_bytes (BitVec.ofNat 16 (lo.toNat + 256 * hi.toNat))
  rwa [hlo, hhi] at h

/-- A selected CRC before which all but two bytes are split off is that of the last two (R72). -/
theorem splitCrc_drop {span : Span} {p : Nat} (hp : selects mask .crc = true → p + 2 = span.length) :
    splitCrc mask (span.drop p) = if selects mask .crc then Claims.trailingCrc span else none := by
  unfold splitCrc
  cases hsel : selects mask .crc with
  | false => rfl
  | true =>
    have hlen := hp hsel
    have hlast : span.length - 2 = p ∧ span.length - 1 = p + 1 := by omega
    have hdrop : span.drop p = [span[p], span[p + 1]] := by
      rw [List.drop_eq_getElem_cons (by omega), List.drop_eq_getElem_cons (by omega),
        List.drop_eq_nil_of_le (by omega)]
    rw [hdrop, Claims.trailingCrc, hlast.1, hlast.2, List.getElem?_eq_getElem (by omega),
      List.getElem?_eq_getElem (by omega)]
    exact congrArg some (crcWord_eq_ofNat _ _)

theorem decodeResult_eq (mask : Mask) (span : Span) : decodeResult mask span =
    if mask.getLsbD 9 = true ∧ crc16 span ≠ 0 then .crcMismatch else .ok := by
  simp [decodeResult, residueZero, selects, fieldBit]

/-- The well-formed spans of R71, with the model's length. -/
theorem wellFormedFor_iff {span : Span} : Claims.wellFormedFor mask span ↔
    flen mask 0 ≤ span.length ∧ Claims.payloadLen mask span ≤ maxPayload ∧
      flen mask 0 + Claims.payloadLen mask span = span.length := by
  rw [Claims.wellFormedFor, flen_eq_flenSum]

theorem payloadLen_of_no_payload (h : selects mask .payload = false) (span : Span) :
    Claims.payloadLen mask span = 0 := if_neg (ne_true_of_eq_false h)

/-- In a well-formed span with a CRC selected, two bytes stand after the other fields (R71). -/
theorem crc_position {span : Span} (hwf : Claims.wellFormedFor mask span) (hcrc : selects mask .crc = true) :
    Claims.fieldPos mask 7 + Claims.payloadLen mask span + Claims.maskBit mask 8 + 2 = span.length := by
  obtain ⟨-, -, hlen⟩ := wellFormedFor_iff.mp hwf
  have hbit : Claims.maskBit mask 9 = 1 := congrArg Bool.toNat hcrc
  rw [flen_zero] at hlen
  omega

/-- The header parser by positions: it takes the well-formed spans apart and rejects every other (R71, R72). -/
theorem decodeRecord_eq (mask : Mask) (span : Span) [Decidable (Claims.wellFormedFor mask span)] :
    decodeRecord mask span =
      if Claims.wellFormedFor mask span then Claims.decodedOf mask span else errorRecord .frameFormat := by
  have hheader : splitByte mask .header span =
      (Claims.byteField mask span 0, span.drop (Claims.fieldPos mask (0 + 1))) := splitByte_fieldPos rfl mask span
  unfold decodeRecord
  split
  · rw [if_neg (by rw [wellFormedFor_iff]; omega)]
  · next hfixed =>
    simp (disch := decide) only [hheader, splitByte_fieldPos, Nat.reduceAdd,
      decodedPayloadLen_byteField (Nat.le_of_not_lt hfixed)]
    split
    · rw [if_neg (by rw [wellFormedFor_iff]; omega)]
    · have hwf : Claims.wellFormedFor mask span := by rw [wellFormedFor_iff]; omega
      simp only [if_pos hwf, splitPayload_drop fun h => payloadLen_of_no_payload h span, splitByte_drop, fieldBit,
        splitCrc_drop (crc_position hwf), decodeResult_eq]
      rfl

/-- Settles O47: the record by positions, in its two cases. -/
theorem decodeIblockResult : Obligations.DecodeIblockResult := by
  classical
  refine ⟨fun m => (linesAssembleToTheirCommand.2 m).2, fun mask s hlen hwf => ?_, fun mask s hlen hwf => ?_⟩
  · refine exec_decodeIblock_next.mpr ⟨spanAdmitted_iff.mpr hlen, ?_⟩
    rw [decodeRecord_eq, if_pos hwf]
    rfl
  · refine exec_decodeIblock_next.mpr ⟨spanAdmitted_iff.mpr hlen, ?_⟩
    rw [decodeRecord_eq, if_neg hwf]
    rfl

end Sys2Proof.Machine

/-! The host that keeps its order (70_reset_and_hazards.md R96, R97): every record it got for a CLASSIFY is the
classifier's record of that frame, so no request reaches VALIDATE. -/

namespace Sys2Proof.Machine

variable {s u : State} {r : ResultRecord} {k : Nat}

/-- CLASSIFY answers sub-type WTX for the requests and no other frame (R64, R67). -/
theorem classifyRecord_sub_wtx {f : Span} : (classifyRecord f).sub = some .wtx ↔ isWtxRequest f = true := by
  cases f with
  | nil => simp [classifyRecord, errorRecord, isWtxRequest]
  | cons h rest => exact (subType_wtx h).trans decide_eq_true_iff.symm

/-- A frame is reported as `S`/`WTX` exactly when it is a request (R64, R67, R96). -/
theorem reportsWtx_classifyRecord {f : Span} : ReportsWtx (classifyRecord f) ↔ isWtxRequest f = true := by
  rw [← classifyRecord_sub_wtx]
  refine ⟨fun h => h.2, fun h => ⟨?_, h⟩⟩
  exact (classifyRecord_legal f).sub_kind.mp (by rw [h]; rfl)

/-- The FWT byte CLASSIFY answers is the second byte of the frame (R68). -/
theorem classifyRecord_fwt {f : Span} {b : Byte} (h : (classifyRecord f).fwt = some b) : f[1]? = some b := by
  cases f with
  | nil => cases h
  | cons hdr rest =>
    rw [classifyRecord, fwtByte] at h
    split at h
    · exact h
    · cases h

/-- An exchange of a run was the exchange of one of its steps. -/
theorem step_of_mem_exchanges {c : Command} (hrun : Host.Core.run core k s = .next u)
    (h : (c, r) ∈ exchanges k s) : ∃ s' t', step s' = .next t' ∧ exchange s' t' = some (c, r) := by
  induction k generalizing s with
  | zero => cases h
  | succ k ih =>
    obtain ⟨t, hs, hrun⟩ := run_succ.mp hrun
    rw [exchanges_succ hs, List.mem_append, Option.mem_toList] at h
    obtain h | h := h
    · exact ⟨s, t, hs, h⟩
    · exact ih hrun h

/-- The command of an exchange of a run is one of the host events the run took (R33). -/
theorem command_of_mem_exchanges {c : Command} (hrun : Host.Core.run core k s = .next u)
    (h : (c, r) ∈ exchanges k s) : .command c ∈ s.pending.take k := by
  have hmem : HostEvent.command c ∈ (exchanges k s).map (HostEvent.command ∘ Prod.fst) :=
    List.mem_map.mpr ⟨(c, r), h, rfl⟩
  rw [exchanges_commands hrun] at hmem
  exact List.mem_of_mem_filter hmem

/-- The record exchanged for a CLASSIFY is the classifier's record of its frame (R70). -/
theorem classifyRecord_of_mem_exchanges {c : Command} (hrun : Host.Core.run core k s = .next u)
    (h : (c, r) ∈ exchanges k s) (hd : decode c.word = .ok .classify) : r = classifyRecord c.operands.span := by
  obtain ⟨s', t', hstep, hex⟩ := step_of_mem_exchanges hrun h
  obtain ⟨⟨rest, hp⟩, hr⟩ := exchange_eq_some.mp hex
  rw [stepRunsTheDecodedCommand s' c rest _ hp hd] at hstep
  obtain ⟨-, rfl⟩ := exec_classify_next.mp hstep
  exact (Option.some.inj hr).symm

/-- A frame classified in a run came in with one of its commands, and the host got the classifier's record of it. -/
theorem Classified.exists_command {f : Span} (h : Classified k s f r) (hrun : Host.Core.run core k s = .next u) :
    r = classifyRecord f ∧ ∃ d, .command d ∈ s.pending.take k ∧ (d, r) ∈ exchanges k s ∧
      decode d.word = .ok .classify ∧ d.operands.span = f := by
  obtain ⟨d, hmem, hd, rfl⟩ := h
  exact ⟨classifyRecord_of_mem_exchanges hrun hmem hd, d, command_of_mem_exchanges hrun hmem, hmem, hd, rfl⟩

/-- A frame held for a possible request comes to VALIDATE after a CLASSIFY, and it is no request (R96). -/
theorem HostKeepsOrder.validates_classified {mayBe : Span → Prop} {c : Command} (hhost : HostKeepsOrder mayBe k s)
    (hc : IssuedAfter k s c) (hd : decode c.word = .ok .validate) (hmay : mayBe c.operands.span) :
    isWtxRequest c.operands.span = false ∧
      ∃ d r, .command d ∈ s.pending.take k ∧ (d, r) ∈ exchanges k s ∧ decode d.word = .ok .classify ∧
        d.operands.span = c.operands.span ∧ r.sub ≠ some .wtx := by
  obtain ⟨r, hr⟩ := hhost.classifies_first k c le_rfl hc hd hmay
  have hno := hhost.validates_no_request k c r le_rfl hc hd hr
  obtain ⟨u, -, hrun, -⟩ := hc
  obtain ⟨rfl, d, hpend, hmem, hdec, hspan⟩ := hr.exists_command hrun
  rw [reportsWtx_classifyRecord] at hno
  exact ⟨Bool.eq_false_of_not_eq_true hno, d, _, hpend, hmem, hdec, hspan, mt classifyRecord_sub_wtx.mp hno⟩

/-- Settles O53: a request at VALIDATE would be held for a possible one, so CLASSIFY would have reported it; and an
acknowledgement carries the FWT byte of a record CLASSIFY returned for a request. -/
theorem orderlyHostsNeverValidateRequests : Obligations.OrderlyHostsNeverValidateRequests := by
  intro mayBe k s c hhost hc
  refine ⟨fun hd => ?_, fun hd => ?_⟩
  · refine ⟨?_, fun hmay => (hhost.validates_classified hc hd hmay).2⟩
    cases hreq : isWtxRequest c.operands.span with
    | false => rfl
    | true => exact hreq.symm.trans (hhost.validates_classified hc hd (hhost.misses_none _ hreq)).1
  · obtain ⟨f, r, hr, hreport, hfwt⟩ := hhost.acknowledges_requests k c le_rfl hc hd
    obtain ⟨u, rest, hrun, hp⟩ := hc
    obtain ⟨rfl, d, hpend, hmem, hdec, rfl⟩ := hr.exists_command hrun
    have hreq := reportsWtx_classifyRecord.mp hreport
    have hstep := (stepRunsTheDecodedCommand u c rest _ hp hd).trans (wtxAckResult.2.1 _)
    exact ⟨d, _, u, _, hpend, hmem, hdec, hreq, classifyRecord_fwt hfwt, hreport.1, hreport.2, hfwt, hrun, hstep,
      rfl⟩

end Sys2Proof.Machine

/-! The Response Validator (43_response_validator.md R74 to R79): when each window passes, what the record is then, and
the spans that pass the full window by what they are made of: an intact response, a padded frame, a request. -/

namespace Sys2Proof.Machine

variable {s : State} {r : ResultRecord} {f front : Span} {a b x y : Byte}

/-! ## The two windows -/

/-- The status of two bytes on their values, the earlier one high (R27). -/
theorem statusWord_eq_statusOf (a b : Byte) : statusWord a b = Claims.statusOf a b := by
  rw [statusWord, BitVec.or_comm, Claims.statusOf, Nat.add_comm]
  exact crcWord_eq_ofNat b a

theorem fullWindowPasses_iff : fullWindowPasses f = true ↔ 4 ≤ f.length ∧ crc16 f = 0 := by
  simp only [fullWindowPasses, residueZero, Bool.and_eq_true, decide_eq_true_iff]

theorem narrowWindowPasses_iff : narrowWindowPasses f = true ↔ 5 ≤ f.length ∧ crc16 (f.take 5) = 0 := by
  simp only [narrowWindowPasses, residueZero, subSpan, List.drop_zero, Bool.and_eq_true, decide_eq_true_iff]

/-- The full window fails for want of bytes or by the residue (R74). -/
theorem not_fullWindowPasses_iff : ¬ fullWindowPasses f = true ↔ f.length < 4 ∨ crc16 f ≠ 0 := by
  rw [fullWindowPasses_iff, not_and_or, not_le]

/-- The narrow window fails for want of bytes or by the residue (R75). -/
theorem not_narrowWindowPasses_iff : ¬ narrowWindowPasses f = true ↔ f.length < 5 ∨ crc16 (f.take 5) ≠ 0 := by
  rw [narrowWindowPasses_iff, not_and_or, not_le]

/-- Under the full window the status is the two bytes before the CRC, and the data what lies between the first byte and
the status (R74, R78). -/
theorem validateRecord_full (h : crc16 (front ++ [a, b, x, y]) = 0) :
    validateRecord (front ++ [a, b, x, y]) = statusRecord (Claims.statusOf a b) .full (front.drop 1) := by
  have hlen : (front ++ [a, b, x, y]).length = front.length + 4 := List.length_append
  have hstatus : statusAt (front ++ [a, b, x, y]) front.length = Claims.statusOf a b := by
    simp [statusAt, statusWord_eq_statusOf]
  rw [validateRecord, if_pos (fullWindowPasses_iff.mpr ⟨by omega, h⟩), hlen, Nat.add_sub_cancel, hstatus, subSpan,
    List.take_left]

/-- VALIDATE returns the validator's record of an admitted span (R79). -/
theorem exec_validate_of_record (hlen : s.operands.span.length ≤ 255) (h : validateRecord s.operands.span = r) :
    exec .validate s = .next (setResult r s) :=
  exec_validate_next.mpr ⟨spanAdmitted_iff.mpr hlen, by rw [h]⟩

/-- VALIDATE of an admitted span of residue zero that ends in a status and a CRC (R74, R77, R78). -/
theorem exec_validate_full (hs : s.operands.span = front ++ [a, b, x, y]) (hlen : s.operands.span.length ≤ 255)
    (h : crc16 s.operands.span = 0) :
    exec .validate s = .next (setResult (statusRecord (Claims.statusOf a b) .full (front.drop 1)) s) := by
  refine exec_validate_of_record hlen ?_
  rw [hs] at h ⊢
  exact validateRecord_full h

/-- Settles O49: the record of each window, tried in the order of R76. -/
theorem validateTriesBothWindows : Obligations.ValidateTriesBothWindows := by
  refine ⟨fun s front a b x y => exec_validate_full, fun s h a b x y rest hs hlen hfull hnarrow => ?_,
    fun s hlen hfull hnarrow => ?_⟩
  · refine exec_validate_of_record hlen ?_
    rw [hs] at hfull ⊢
    have hpass : narrowWindowPasses (h :: a :: b :: x :: y :: rest) = true :=
      narrowWindowPasses_iff.mpr ⟨by simp, hnarrow⟩
    have hstatus : statusAt (h :: a :: b :: x :: y :: rest) 1 = Claims.statusOf a b := statusWord_eq_statusOf a b
    rw [validateRecord, if_neg (not_fullWindowPasses_iff.mpr (.inr hfull)), if_pos hpass, hstatus]
    rfl
  · refine exec_validate_of_record hlen ?_
    rw [validateRecord, if_neg (not_fullWindowPasses_iff.mpr hfull), if_neg (not_narrowWindowPasses_iff.mpr hnarrow)]
    rfl

/-! ## What passes the full window -/

/-- Settles O50: the response's own CRC leaves residue zero, and the bytes before its status are the header and the
data (R50). -/
theorem intactResponsesYieldTheirData : Obligations.IntactResponsesYieldTheirData := by
  intro s h a b d hd hs
  have hcrc : crc16 s.operands.span = 0 := hs ▸ ownCrcLeavesZeroResidue _
  have hlen : s.operands.span.length ≤ 255 := by
    simp only [hs, Claims.withCrc, List.length_append, List.length_cons, List.length_nil]
    omega
  rw [Claims.withCrc, ← List.cons_append, List.append_assoc] at hs
  exact exec_validate_full hs hlen hcrc

/-- A zero accumulator stays zero over zero bytes (R47). -/
theorem crcFrom_zero_replicate (n : Nat) : crcFrom 0 (List.replicate n 0x00) = 0 := by
  induction n with
  | zero => rfl
  | succ n ih => exact ih

/-- Settles O51: the padding leaves the residue of the frame zero, and its last four bytes stand for status and CRC
(R79). -/
theorem zeroPaddingIsReadAsStatus : Obligations.ZeroPaddingIsReadAsStatus := by
  intro s f n hf hn hlen hs
  have hcrc : crc16 s.operands.span = 0 := by
    rw [hs, crc16_append, hf]
    exact crcFrom_zero_replicate n
  have hpad : List.replicate n (0x00 : Byte) = List.replicate (n - 4) 0x00 ++ [0x00, 0x00, 0x00, 0x00] := by
    conv_lhs => rw [← Nat.sub_add_cancel hn, List.replicate_add]
    rfl
  have hsplit : s.operands.span = (f ++ List.replicate (n - 4) 0x00) ++ [0x00, 0x00, 0x00, 0x00] := by
    rw [hs, hpad, List.append_assoc]
  exact exec_validate_full hsplit (by simp [hs, hlen]) hcrc

/-- A status whose high byte has its top four bits set is not success (R77). -/
theorem resOfStatus_of_request {h : Byte} (hh : h.toNat / 16 = 15) (fwt : Byte) :
    Claims.resOfStatus (Claims.statusOf h fwt) = .chipStatus := by
  refine if_neg fun hsw => ?_
  have hval : (256 * h.toNat + fwt.toNat) % 65536 = 36864 := congrArg BitVec.toNat hsw
  omega

/-- Settles O52: four bytes are status and CRC with nothing before them, so the request's header is the status's high
byte (R79, R96). -/
theorem wtxRequestsValidateAsChipStatus : Obligations.WtxRequestsValidateAsChipStatus := by
  intro s h fwt x y hs hreq hcrc
  have hres : statusResult (Claims.statusOf h fwt) = .chipStatus := by
    rw [hs] at hreq
    exact resOfStatus_of_request (of_decide_eq_true hreq) fwt
  rw [exec_validate_full (front := []) hs (by simp [hs]) hcrc, statusRecord, hres]
  rfl

end Sys2Proof.Machine

/-! Errors and the boundary (60_exceptions.md R80, R82, R84, R89): an error is a record at the result port and nothing
else, and what the boundary refuses. -/

namespace Sys2Proof.Machine

variable {s t : State} {r : ResultRecord} {span : Span} {mask : Mask} {i : Instr}

/-! ## Idle steps and refusals -/

/-- Settles O10: the idle step empties the ports and keeps the rest. -/
theorem idleBlockKeepsSeq : Obligations.IdleBlockKeepsSeq := by
  intro s h
  exact ⟨takePorts Operands.idle [] s, step_of_no_event h, rfl, rfl, rfl, rfl⟩

theorem boundaryRefusal_of_namesSpan (hi : namesSpan i = true) : boundaryRefusal i = .spanTooLong := by
  cases i with
  | encodeIblock mask => cases hi
  | _ => rfl

/-- The boundary refuses a named span above 255 bytes (R17). -/
theorem exec_refused_of_long_span (hi : namesSpan i = true) (hlen : 255 < s.operands.span.length) :
    exec i s = .refused .spanTooLong := by
  rw [exec_refused_iff, operandsAdmitted_of_namesSpan hi, boundaryRefusal_of_namesSpan hi]
  exact ⟨decide_eq_false (Nat.not_le.mpr hlen), rfl⟩

/-- The boundary refuses a present payload of another length than `LC` (R18). -/
theorem exec_encodeIblock_refused_of_length_ne {p : Span} (hp : s.operands.descriptor.payload = some p)
    (hlen : p.length ≠ s.operands.descriptor.lc.toNat) :
    exec (.encodeIblock mask) s = .refused .payloadLengthMismatch := by
  have hnot : ¬ descriptorAdmitted s.operands.descriptor = true :=
    fun ha => hlen ((descriptorAdmitted_iff _).mp ha p hp)
  exact exec_refused_iff.mpr ⟨eq_false_of_ne_true hnot, rfl⟩

/-- Settles O12: the boundary's check of each operand, and an event that is no single command. -/
theorem boundaryRefusals : Obligations.BoundaryRefusals :=
  ⟨fun _ _ => exec_refused_of_long_span, fun _ _ _ => exec_encodeIblock_refused_of_length_ne,
    fun _ _ _ _ _ hp => step_of_event hp⟩

/-! ## What an error leaves -/

/-- An operation that answers an error only puts its record at the result port: an emitted frame comes with OK (R84). -/
theorem exec_error_eq_setResult (h : exec i s = .next t) (hr : t.result = some r) (herr : r.res ≠ .ok) :
    t = setResult r s := by
  obtain ⟨q, rfl⟩ | ⟨mask, -, rfl⟩ := exec_next_setResult_or_encoded h
  · obtain rfl := Option.some.inj hr
    rfl
  · obtain rfl := Option.some.inj hr
    cases herr rfl

/-! ## The records with CRC_MISMATCH -/

theorem statusResult_ne_crcMismatch (sw : Word) : statusResult sw ≠ .crcMismatch := by
  unfold statusResult
  split <;> decide

/-- CLASSIFY answers no CRC_MISMATCH: its residue test is the field `CRC4_OK` (R69, R70). -/
theorem classifyRecord_res_ne_crcMismatch (span : Span) : (classifyRecord span).res ≠ .crcMismatch := by
  cases span <;> exact nofun

/-- CRC_CHECK answers CRC_MISMATCH with the residue (R52). -/
theorem crcCheckRecord_of_crcMismatch (h : (crcCheckRecord span).res = .crcMismatch) :
    crcCheckRecord span = { res := .crcMismatch, crc := some (crc16 span) } := by
  rw [← h]
  rfl

/-- VALIDATE answers CRC_MISMATCH where no window passes, with no field beside it (R76). -/
theorem validateRecord_of_crcMismatch (h : (validateRecord span).res = .crcMismatch) :
    validateRecord span = { res := .crcMismatch } := by
  unfold validateRecord at h ⊢
  split at h
  · cases statusResult_ne_crcMismatch _ h
  · next hfull =>
    rw [if_neg hfull]
    split at h
    · cases statusResult_ne_crcMismatch _ h
    · next hnarrow => exact if_neg hnarrow

/-- DECODE_IBLOCK answers CRC_MISMATCH for a well-formed span, with its decoded fields (R72). -/
theorem decodeRecord_of_crcMismatch (h : (decodeRecord mask span).res = .crcMismatch) :
    decodeRecord mask span = Claims.decodedOf mask span := by
  classical
  rw [decodeRecord_eq] at h ⊢
  split at h
  · next hwf => exact if_pos hwf
  · cases h

/-- The operations over a span that answer CRC_MISMATCH, each with the fields R80 names. -/
theorem spanRecord_of_crcMismatch (h : (spanRecord i span).res = .crcMismatch) :
    (i = .crcCheck ∧ ∃ c, spanRecord i span = { res := .crcMismatch, crc := some c }) ∨
      (i = .validate ∧ spanRecord i span = { res := .crcMismatch }) ∨
      (∃ mask, i = .decodeIblock mask ∧ spanRecord i span = Claims.decodedOf mask span) := by
  cases i with
  | crcCheck => exact .inl ⟨rfl, _, crcCheckRecord_of_crcMismatch h⟩
  | validate => exact .inr (.inl ⟨rfl, validateRecord_of_crcMismatch h⟩)
  | decodeIblock mask => exact .inr (.inr ⟨mask, rfl, decodeRecord_of_crcMismatch h⟩)
  | classify => cases classifyRecord_res_ne_crcMismatch span h
  | crcCompute => cases h
  | encodeIblock mask => cases h
  | encodeWtxAck => cases h

/-- CRC_MISMATCH comes from an operation over a span, the two encodes having no such answer (R80). -/
theorem exec_crcMismatch (h : exec i s = .next t) (hr : t.result = some r) (hres : r.res = .crcMismatch) :
    r = spanRecord i s.operands.span := by
  obtain ⟨-, -, rfl⟩ | ⟨-, rfl⟩ | ⟨mask, -, -, ⟨-, rfl⟩ | ⟨-, rfl⟩⟩ := exec_next_cases h <;>
    obtain rfl := Option.some.inj hr
  · rfl
  all_goals cases hres

/-- Settles O20: the error's record alone reaches the state; it is legal, which leaves only the fields of CRC_MISMATCH
to be told apart by operation. -/
theorem errorsChangeNoState : Obligations.ErrorsChangeNoState := by
  intro i s t r h hr herr
  have hlegal : RecordLegal r := exec_resultPortLegal h r hr
  refine ⟨exec_error_eq_setResult h hr herr, hlegal.bare_error, fun hres => ?_, fun hres => ?_⟩
  · obtain ⟨sw, w, d, -, hrecord⟩ := hlegal.chip_status hres
    exact ⟨sw, w, d, hrecord⟩
  · obtain rfl := exec_crcMismatch h hr hres
    exact spanRecord_of_crcMismatch hres

end Sys2Proof.Machine

/-! Reset and the host's orderings (70_reset_and_hazards.md R90, R94, R95): what a step does to `SEQ` by the event it
takes, and what the wire carries when the host sends its frames in order. -/

namespace Sys2Proof.Machine

variable {s t : State} {c : Command} {rest : List HostEvent} {f : Span} {last : BitVec 1} {encoded wire : List Span}

/-! ## The wire -/

/-- A frame that carries the other bit than `last` may stand before a wire that alternates from that bit on. -/
theorem WireAlternates.cons (hbit : seqBitOf f = some (~~~last)) (h : WireAlternates (~~~last) wire) :
    WireAlternates last (f :: wire) := by
  cases wire with
  | nil => exact hbit
  | cons g rest => exact ⟨hbit, .inr h⟩

/-- Frames sent in order, with copies, alternate on the wire as the encoded frames do (R94, R95). -/
theorem SentInOrder.wireAlternates (hsent : SentInOrder encoded wire) (h : Alternates last encoded) :
    WireAlternates last wire := by
  induction hsent generalizing last with
  | done => trivial
  | send f _ ih =>
    obtain ⟨hbit, htail⟩ := h
    exact (ih htail).cons hbit
  | resend f _ ih =>
    exact ⟨h.1, .inl ⟨rfl, ih h⟩⟩

/-- Settles O38: the encoded frames alternate from `SEQ` on (R61), and the wire keeps that. -/
theorem wireSeesStrictAlternation : Obligations.WireSeesStrictAlternation := by
  intro k s wire hn hsent
  exact hsent.wireAlternates (emittedSequenceBitsAlternate k s hn)

/-! ## Reset -/

/-- A command leaves `SEQ`, but for a header encode that answers OK (R14, R58, R90). -/
theorem step_seq_of_command (hp : s.pending = .command c :: rest) (h : step s = .next t) :
    t.seq = s.seq ∨
      ∃ mask r, decode c.word = .ok (.encodeIblock mask) ∧ mask.getLsbD 0 = true ∧ t.result = some r ∧ r.res = .ok := by
  cases hd : decode c.word with
  | error why =>
    rw [step_of_event hp, takeEvent, commandStep, issueWord_illegal hd] at h
    cases h
    exact .inl rfl
  | ok i =>
    rw [stepRunsTheDecodedCommand s c rest i hp hd] at h
    obtain hseq | ⟨mask, r, rfl, hsel, hr, hok, -⟩ := exec_seq h
    · exact .inl hseq
    · exact .inr ⟨mask, r, rfl, hsel, hr, hok⟩

/-- Settles O11: the reset step is `applyReset` at empty ports; a header encode toggles `SEQ` as O34 says, and any other
command leaves it. -/
theorem resetSetsSeqToOne : Obligations.ResetSetsSeqToOne := by
  refine ⟨rfl, fun s rest hp => ?_, fun s t c rest r hp h hr => ⟨fun mask hd hsel hok => ?_, fun hother => ?_⟩⟩
  · exact ⟨applyReset (takePorts Operands.idle rest s), step_of_event hp, rfl, rfl, rfl, rfl⟩
  · rw [stepRunsTheDecodedCommand s c rest _ hp hd] at h
    exact ((seqTogglesWithEachEmittedHeader mask _ t r h hr).1 hok hsel).1
  · obtain hseq | ⟨mask, r', hd, hsel, hr', hok⟩ := step_seq_of_command hp h
    · exact hseq
    · obtain rfl := Option.some.inj (hr.symm.trans hr')
      obtain hno | herr := hother mask hd
      · cases hsel.symm.trans hno
      · exact absurd hok herr

end Sys2Proof.Machine
